-- ==== Sys2Proof/Word.lean ====
section
/-! DEFINITION. The types of bits: the instruction word, a byte, a width or offset port. -/

namespace Sys2Proof

/-- The instruction word `W`: 32 bits, unsigned, MSB-0 bit 0 being its most significant bit (R9, R20). -/
abbrev Word := BitVec 32

/-- One byte of `bytes_out` (R42). -/
abbrev Byte := BitVec 8

/-- The `width` and `offset` ports of `WUF` and `WSF`: naturals in 0 .. 63 (R24, D2). -/
abbrev FieldPort := Fin 64

end Sys2Proof
end

