-- ==== Sys2Proof/Machine/Bits.lean ====
section
/-! DEFINITION. Bit fields, signed readings, byte order and the half swap (R9, R10, R13, R42, R145). -/

namespace Sys2Proof.Machine

/-- `u32(x)`, `x mod 2^32` (R10). -/
def u32 (x : Int) : Word := BitVec.ofInt 32 x

/-- `s32(p)`, the two's-complement reading of a 32-bit pattern (R10). -/
def s32 (p : Word) : Int := p.toInt

/-- `zext_N(v)`: the low `n` bits of `v` as unsigned (R10). -/
def zext (n v : Nat) : Nat := v % 2 ^ n

/-- `sext_N(v)`: the low `n` bits of `v` as two's complement (R10). -/
def sext (n v : Nat) : Int := if zext n v < 2 ^ (n - 1) then zext n v else (zext n v : Int) - 2 ^ n

/-- `dep(W, v, w, o)`, the deposit by OR (R13); used only where `o + w ≤ 32` and `v < 2^w`. -/
def dep (w : Word) (v width offset : Nat) : Word := w ||| BitVec.ofNat 32 (v <<< (32 - offset - width))

/-- The field `(offset, width)` of a word, `W{offset .. offset+width−1}`, as an unsigned number (R9). -/
def field (w : Word) (offset width : Nat) : Nat := zext width (w.toNat >>> (32 - offset - width))

/-- `W{a}`, the bit at MSB-0 position `a` (R9). -/
def bitAt (w : Word) (a : Nat) : Bool := w.getLsbD (31 - a)

/-- `swap10`: the low five bits of the identifier become the high five of the result (R71, R145). -/
def swap10 (s : Nat) : Nat := ((s &&& 0x1F) <<< 5) ||| (s >>> 5)

/-- `bytes_out` of a word: `B0, B1, B2, B3`, the most significant byte first (R42, R43). -/
def toBytes (w : Word) : List Byte :=
  [w.extractLsb' 24 8, w.extractLsb' 16 8, w.extractLsb' 8 8, w.extractLsb' 0 8]

/-- The word whose byte image is `B0, B1, B2, B3` (R42). -/
def ofBytes (b0 b1 b2 b3 : Byte) : Word := b0 ++ b1 ++ b2 ++ b3

end Sys2Proof.Machine
end

