-- ==== Sys2Proof/Syntax/Opcode.lean ====
section
/-! DEFINITION. The primary opcodes. -/

namespace Sys2Proof

/-- The closed enumeration of primary opcodes, in the order of the source's list (R26, R73). -/
inductive Opcode where
  | branch
  | addImmediate
  | addImmediateShifted
  | orImmediate
  | moveToSpecialRegister
  | branchToRegisterOnCondition
  deriving DecidableEq, Repr

end Sys2Proof
end

