-- ==== Sys2Proof/Config.lean ====
section
/-! DEFINITION. The parameters of rules R6 to R8, one named field each. Their values stand in Machine/Params.lean. -/

namespace Sys2Proof

/-- `IMM16_WRITER` (D11, U4): which primitive deposits the 16-bit immediate. -/
inductive Imm16Writer where
  | unsigned
  | signed
  deriving DecidableEq, Repr

/-- `WSF_NEG_CHECK` (D8, U2): what the signed primitive does below −2^(width−1). -/
inductive WsfNegCheck where
  | fault
  | mask
  deriving DecidableEq, Repr

/-- `FROM_TO_OVERFLOW` (D12, U3): what `from_to` does when the difference of the signed readings exceeds 32 bits. -/
inductive FromToOverflow where
  | wrap
  | fault
  deriving DecidableEq, Repr

/-- `SPR_ID_CHECK` (D13, N24): whether the identifier is tested before its halves are swapped, or the swapped value
alone is tested, by the deposit. -/
inductive SprIdCheck where
  | beforeSwap
  | afterSwap
  deriving DecidableEq, Repr

/-- `FAULT_CODES` (R171, D4): the numeric codes, diagnostic only. -/
structure FaultCodes where
  none : Nat
  fit : Nat
  span : Nat
  align : Nat
  range : Nat
  order : Nat
  deriving DecidableEq, Repr

/-- The parameters of one block (R6, R7, R8; R34: not state). -/
structure Config where
  /-- `WORD_BITS` (R6). -/
  wordBits : Nat
  /-- `WORD_BYTES` (R6). -/
  wordBytes : Nat
  /-- `OPCODE_BITS` (R6). -/
  opcodeBits : Nat
  /-- `N_FORMATS` (R6). -/
  nFormats : Nat
  /-- `REG_FIELD_BITS` (R6). -/
  regFieldBits : Nat
  /-- `IMM_BITS` (R6). -/
  immBits : Nat
  /-- `LI_BITS` (R6). -/
  liBits : Nat
  /-- `AA_OFFSET` (R6). -/
  aaOffset : Nat
  /-- `LK_OFFSET` (R6). -/
  lkOffset : Nat
  /-- `BR_MAX_WORDS` (R6, C1, U6): the bound is symmetric and counted in words. -/
  brMaxWords : Nat
  /-- `SPR_BITS` (R6). -/
  sprBits : Nat
  /-- `SPR_CTR` (R6, R30). -/
  sprCtr : Nat
  /-- `BCTR_WORD` (R6). -/
  bctrWord : Word
  /-- `OPC_BRANCH` (R7). -/
  opcBranch : Nat
  /-- `OPC_ADDIS` (R7). -/
  opcAddis : Nat
  /-- `OPC_ORI` (R7). -/
  opcOri : Nat
  /-- `OPC_X31` (R7). -/
  opcX31 : Nat
  /-- `OPC_XL19` (R7). -/
  opcXl19 : Nat
  /-- `XO_MTSPR` (R7). -/
  xoMtspr : Nat
  /-- `RSV_MTSPR` (R7). -/
  rsvMtspr : Nat
  /-- `OPC_ADDI` (R8, D14). -/
  opcAddi : Nat
  /-- `SPR_LR` (R8, R30, D15). -/
  sprLr : Nat
  /-- `SPR_XER` (R8, R30, D15). -/
  sprXer : Nat
  /-- `OPERAND_BITS` (R8, R24, D2): the width of every integer operand port. -/
  operandBits : Nat
  /-- `IMM16_WRITER` (R8, D11). -/
  imm16Writer : Imm16Writer
  /-- `WSF_NEG_CHECK` (R8, D8). -/
  wsfNegCheck : WsfNegCheck
  /-- `FROM_TO_OVERFLOW` (R8, D12). -/
  fromToOverflow : FromToOverflow
  /-- `SPR_ID_CHECK` (R8, D13). -/
  sprIdCheck : SprIdCheck
  /-- `FAULT_CODES` (R8, D4). -/
  faultCodes : FaultCodes
  /-- `CMD_ENCODING` (R8, D1): OPEN; no rule reads it. It would give bits to a command, named as R81 names it, with the
  numbers at its ports. -/
  cmdEncoding : String → List Nat → List Bool
  /-- `CYCLES_PER_COMMAND` (R8, R209, D19): OPEN; no rule reads it. -/
  cyclesPerCommand : Nat

/-- The value of `CMD_ENCODING`, which the spec leaves OPEN: no proof can see it. -/
opaque Config.openCmdEncoding : String → List Nat → List Bool

/-- The value of `CYCLES_PER_COMMAND`, which the spec leaves OPEN: no proof can see it. -/
opaque Config.openCyclesPerCommand : Nat

end Sys2Proof
end

