-- ==== Sys2Proof/Machine/Params.lean ====
section
/-! DEFINITION. The values this spec takes for the parameters of Config (R6, R7, R8), and the value of each opcode. -/

namespace Sys2Proof.Machine

/-- The spec's values. R6 and R7 are the source's or read off its vectors; `opcAddi`, `sprLr`, `sprXer` are general
knowledge (D14, D15; log entries 11 and 12); the four behaviour choices are the spec's decisions (D8, D11, D12, D13; log
entries 13 to 16). -/
def params : Config where
  wordBits := 32
  wordBytes := 4
  opcodeBits := 6
  nFormats := 6
  regFieldBits := 5
  immBits := 16
  liBits := 24
  aaOffset := 30
  lkOffset := 31
  brMaxWords := 8388607
  sprBits := 10
  sprCtr := 9
  bctrWord := 0x4E800420#32
  opcBranch := 18
  opcAddis := 15
  opcOri := 24
  opcX31 := 31
  opcXl19 := 19
  xoMtspr := 467
  rsvMtspr := 0
  opcAddi := 14
  sprLr := 8
  sprXer := 1
  operandBits := 32
  imm16Writer := .unsigned
  wsfNegCheck := .fault
  fromToOverflow := .wrap
  sprIdCheck := .beforeSwap
  faultCodes := { none := 0, fit := 1, span := 2, align := 3, range := 4, order := 5 }
  cmdEncoding := Config.openCmdEncoding
  cyclesPerCommand := Config.openCyclesPerCommand

/-- `val(op)`, the 6-bit value of an opcode (R73). -/
def opcodeVal (c : Config) : Opcode → Nat
  | .branch => c.opcBranch
  | .addImmediate => c.opcAddi
  | .addImmediateShifted => c.opcAddis
  | .orImmediate => c.opcOri
  | .moveToSpecialRegister => c.opcX31
  | .branchToRegisterOnCondition => c.opcXl19

end Sys2Proof.Machine
end

