-- ==== Sys2Proof/Syntax/Operand.lean ====
section
/-! DEFINITION. The operands of commands: an integer operand, and the construction forms of a branch. -/

namespace Sys2Proof

/-- One integer operand as it stands at its port: a bare pattern of `OPERAND_BITS` bits, read as unsigned or as two's
complement by the command that takes it (R8, R24, D2). -/
abbrev Operand := BitVec Machine.params.operandBits

/-- The three construction forms every branch instantiation has (R123, R124, R126). -/
inductive BranchForm where
  /-- `FAM()`: displacement 0. -/
  | base
  /-- `FAM(offset)`: a signed 32-bit byte offset. -/
  | disp (offset : Operand)
  /-- `FAM::from_to(from_address, to_address)`: two byte addresses. -/
  | fromTo (fromAddress toAddress : Operand)
  deriving DecidableEq, Repr

end Sys2Proof
end

