-- ==== Sys2Proof/Syntax.lean ====
section
/-! DEFINITION. The encoder commands: one constructor per row of spec/opcode_table.json (R75, R81). -/

namespace Sys2Proof

/-- An encoder command with its operands (R81). The constructor is the row's alias (R75); operands keep the source's
names. The three primitive commands have no row (R81) and stand in `Command`. -/
inductive Instr where
  /-- `Branch`, relative, no link (R127). -/
  | b (form : BranchForm)
  /-- `BranchAbsolute`, absolute, no link (R128). -/
  | ba (form : BranchForm)
  /-- `BranchLink`, relative, link (R129). -/
  | bl (form : BranchForm)
  /-- `BranchAbsoluteLink`, absolute, link (R130). -/
  | bla (form : BranchForm)
  /-- `AddImmediate` (R141). -/
  | addi (destReg srcReg imm16 : Operand)
  /-- `AddImmediateShifted` (R142). -/
  | addis (destReg srcReg imm16 : Operand)
  /-- `OrImmediate`; the first operand goes to offset 6, whatever its name suggests (R143). -/
  | ori (destReg srcReg imm16 : Operand)
  /-- `MoveToSpecialPurposeRegister` (R146). -/
  | mtspr (srcReg sprId : Operand)
  /-- `LoadImmediate` (R161). -/
  | li (destReg imm16 : Operand)
  /-- `LoadImmediateShifted` (R162). -/
  | lis (destReg imm16 : Operand)
  /-- `NoOperation` (R163). -/
  | nop
  /-- `BranchCounterRegister` (R148). -/
  | bctr
  deriving DecidableEq, Repr

end Sys2Proof
end

