-- ==== Sys2Proof/Syntax/Command.lean ====
section
/-! DEFINITION. What the controller may present to an instance: the whole command set (R81), reset (R200), and the two
uses the spec gives no meaning to (R48, R185). -/

namespace Sys2Proof

/-- A command of the block: the three primitives, which have no row of the opcode table, and the encoders (R81). -/
inductive Command where
  /-- `NEW(op)` (R101): takes an `Opcode` member, never a number (R77). -/
  | new (op : Opcode)
  /-- `WUF(value, width, offset)` (R102). -/
  | wuf (value : Operand) (width offset : FieldPort)
  /-- `WSF(value, width, offset)` (R104). -/
  | wsf (value : Operand) (width offset : FieldPort)
  /-- An encoder command. -/
  | instr (i : Instr)
  deriving DecidableEq, Repr

/-- One event at an instance's inputs (R185). -/
inductive Request where
  /-- Reset asserted between commands (R200). -/
  | reset
  /-- One command, the block waiting for nothing else (R185 b). -/
  | command (c : Command)
  /-- Reset arriving while a command is being performed: no meaning is given (R200, U10). -/
  | resetDuring (inProgress : Command)
  /-- A second command while one is in progress, as from two controllers: no meaning is given, the model refuses
  it (R48, R185, U10). -/
  | commandDuring (inProgress arriving : Command)
  deriving DecidableEq, Repr

end Sys2Proof
end

