-- ==== Sys2Proof/Machine/State.lean ====
section
/-! DEFINITION. The state of one instance (R20, R22, R23), the reasons a step can stop, and the state after reset (R32).
There is no memory: "a model of the block has no memory component" (R40). -/

namespace Sys2Proof.Machine

/-- The phase `PH` (R22). -/
inductive Phase where
  /-- No word is under construction; `W` holds 0. -/
  | idle
  /-- An opcode has been written; field writes are admitted. -/
  | opened
  /-- A precondition was violated; the instance is dead until reset. -/
  | fault
  deriving DecidableEq, Repr

/-- The fault causes other than `NONE` (R171). -/
inductive Cause where
  | fit
  | span
  | align
  | range
  | order
  deriving DecidableEq, Repr

/-- One instance (R20, R22, R23, R33). -/
structure State where
  /-- `W`, the instruction word register (R20). -/
  w : Word
  /-- `PH`, the phase (R22). -/
  ph : Phase
  /-- `FC`, the fault cause, `none` being `NONE` (R23). -/
  fc : Option Cause
  /-- The MODEL'S OWN field: what the controller will present, first one first (DESIGN CHOICE, log entry 1). -/
  requests : List Request
  deriving DecidableEq, Repr

/-- Reasons a step stops with a fault: there are none. A `Fault(cause)` of the spec is a state the block enters
(R178, R179), hence a next state here; no step of the block stops the machine. Safe. -/
inductive Fault where
  deriving DecidableEq, Repr

/-- Reasons a step has no meaning. -/
inductive Refusal where
  /-- Raised by an arm of exec whose instruction has no meaning yet; no arm is such. Safe. -/
  | notModelled (mnemonic : String)
  /-- Raised by a step whose request is `resetDuring` or `commandDuring`: "the spec gives it no meaning and a model must
  refuse it" (R48; R185, R200, U10). Safe. -/
  | overlappingUse
  deriving DecidableEq, Repr

/-- The state after reset (R32), the controller having presented nothing yet. -/
def State.reset : State where
  w := 0x00000000#32
  ph := .idle
  fc := none
  requests := []

end Sys2Proof.Machine
end

