-- ==== Sys2Proof/Machine/Ops.lean ====
section
/-! DEFINITION. The shared operations: the three primitives as steps, `require`, taking a fault and leaving it by reset,
performing a command. An effect answers `Except.error c` where the spec writes `raise Fault(c)`. -/

namespace Sys2Proof.Machine

/-- A `require p else c` line of the spec's pseudocode (R12). -/
def require (p : Prop) [Decidable p] (c : Cause) : Except Cause Unit := if p then .ok () else .error c

/-! ### Replacing one register at a time -/

/-- `W <- v` (R11). -/
def State.setW (s : State) (v : Word) : State := { s with w := v }

/-- The state in which a word is under construction: `W <- v`, `PH <- OPEN` (R101). -/
def State.openWith (s : State) (v : Word) : State := { s with w := v, ph := .opened }

/-- Taking a fault (R178): `PH <- FAULT`, `FC <- cause`; `W` is not written and nothing else is saved. -/
def State.raise (s : State) (c : Cause) : State := { s with ph := .fault, fc := some c }

/-- The reset input (R200): `W`, `PH` and `FC` take their reset values, in any phase. It is the only way out of `FAULT`
(R179). What the controller goes on to present is not the block's and stays (log entry 4). -/
def State.assertReset (s : State) : State := { State.reset with requests := s.requests }

/-- The events still to be presented once the first has been taken. -/
def State.withRequests (s : State) (rs : List Request) : State := { s with requests := rs }

/-! ### The primitive steps (R101, R102, R104) -/

/-- The effect of `NEW(op)` (R101): clear `W`, deposit the opcode at offset 0, open the word. -/
def newStep (c : Config) (op : Opcode) (s : State) : State :=
  s.openWith (dep 0 (opcodeVal c op) c.opcodeBits 0)

/-- The effect of `WUF(value, width, offset)` (R102); the checks in the order written. -/
def wufStep (c : Config) (value width offset : Nat) (s : State) : Except Cause State :=
  if s.ph ≠ .opened then .error .order
  else if ¬ offset + width ≤ c.wordBits then .error .span
  else if ¬ value < 2 ^ width then .error .fit
  else .ok (s.setW (dep s.w value width offset))

/-- The sign bit `WSF` deposits (R104). -/
def signBit (v : Int) : Nat := if v < 0 then 1 else 0

/-- The magnitude bits `WSF` deposits: for a negative value the low `width − 1` bits of the raw two's-complement
pattern, verbatim (R104, C2). -/
def magnitude (v : Int) (width : Nat) : Nat :=
  if v < 0 then (u32 v).toNat &&& (2 ^ (width - 1) - 1) else v.toNat

/-- The word after a signed deposit: the sign bit first, then the magnitude bits (R104). -/
def depSigned (w : Word) (v : Int) (width offset : Nat) : Word :=
  dep (dep w (signBit v) 1 offset) (magnitude v width) (width - 1) (offset + 1)

/-- The effect of `WSF(value, width, offset)` on the signed reading `v` of its value (R104); the checks in the order
written. The lower bound is demanded unless `WSF_NEG_CHECK = mask` (D8, U2). -/
def wsfStep (c : Config) (v : Int) (width offset : Nat) (s : State) : Except Cause State :=
  if s.ph ≠ .opened then .error .order
  else if ¬ 1 ≤ width then .error .fit
  else if ¬ offset + width ≤ c.wordBits then .error .span
  else if ¬ v ≤ 2 ^ (width - 1) - 1 then .error .fit
  else if c.wsfNegCheck = .fault ∧ ¬ -(2 ^ (width - 1)) ≤ v then .error .fit
  else .ok (s.setW (depSigned s.w v width offset))

/-! ### Performing a command -/

/-- A command is one indivisible step (R14, R46): in `FAULT` it has no effect (R179); otherwise its effect happens whole,
or the fault it raises is taken from the state before it (R178). -/
def perform (effect : State → Except Cause State) (s : State) : State :=
  if s.ph = .fault then s
  else
    match effect s with
    | .ok t => t
    | .error c => s.raise c

end Sys2Proof.Machine
end

