-- ==== Sys2Proof/Machine/Flags.lean ====
section
/-! DEFINITION. The status outputs (R25) and the two flag operands of the branch family (R120). The block has no condition
flag that a command sets or tests (R31): "flags written" is none for every command. -/

namespace Sys2Proof.Machine

/-- A flag operand `aa` or `lk` as the one-bit value it deposits (R120, R72). -/
def flagBit (f : Bool) : Nat := if f then 1 else 0

/-- `word_valid` (R25). -/
def State.wordValid (s : State) : Bool := s.ph == .opened

/-- `word_out` (R25): not defined while `word_valid = 0`, so that no claim can read it then (U9). -/
def State.wordOut (s : State) : Option Word := if s.wordValid then some s.w else none

/-- `bytes_out`, the four-byte big-endian image of `word_out` (R25, R42). -/
def State.bytesOut (s : State) : Option (List Byte) := s.wordOut.map toBytes

/-- `fault` (R25). -/
def State.faultOut (s : State) : Bool := s.ph == .fault

/-- `fault_cause`, which is `FC` (R25). -/
def State.faultCause (s : State) : Option Cause := s.fc

/-- The numeric code of a fault cause (R171). -/
def causeCode (c : Config) : Option Cause → Nat
  | none => c.faultCodes.none
  | some .fit => c.faultCodes.fit
  | some .span => c.faultCodes.span
  | some .align => c.faultCodes.align
  | some .range => c.faultCodes.range
  | some .order => c.faultCodes.order

/-- The numeric code shown at `fault_cause` (R25, R171). -/
def State.faultCode (s : State) : Nat := causeCode params s.faultCause

end Sys2Proof.Machine
end

