-- ==== Sys2Proof/Machine/Operands.lean ====
section
/-! DEFINITION. The operand forms: how each operand of an encoder is read, checked and deposited (R24, R69 to R72, R126). -/

namespace Sys2Proof.Machine

/-- The unsigned reading of a port: `value` of `WUF`, register indices, `imm16`, `spr_id` (R24). -/
def readUnsigned (v : Operand) : Nat := v.toNat

/-- The two's-complement reading of a port: `value` of `WSF`, the branch `offset` (R24). -/
def readSigned (v : Operand) : Int := v.toInt

/-- A register operand, deposited unchanged into a 5-bit field (R72). -/
def regStep (c : Config) (r : Operand) (offset : Nat) (s : State) : Except Cause State :=
  wufStep c (readUnsigned r) c.regFieldBits offset s

/-- The 16-bit immediate at offset 16, never shifted or extended (R70). The spec's writer is the unsigned one; the
alternative reading admits −32768 .. 32767 (D11, U4). -/
def immStep (c : Config) (imm : Operand) (s : State) : Except Cause State :=
  match c.imm16Writer with
  | .unsigned => wufStep c (readUnsigned imm) c.immBits 16 s
  | .signed => wsfStep c (readSigned imm) c.immBits 16 s

/-- The test made on a special-register identifier before its halves are swapped: `spr_id < 1024` (R71, D13). With
`SPR_ID_CHECK = afterSwap` only the deposit of the swapped value tests. -/
abbrev sprIdAdmitted (c : Config) (id : Operand) : Prop :=
  c.sprIdCheck = .beforeSwap → readUnsigned id < 2 ^ c.sprBits

/-- The special-register identifier at offset 11, halves swapped (R71, R146). -/
def sprStep (c : Config) (id : Operand) (s : State) : Except Cause State := do
  require (sprIdAdmitted c id) .fit
  wufStep c (swap10 (readUnsigned id)) c.sprBits 11 s

/-- The displacement of a `from_to` form (R126): one 32-bit subtraction, wrapping, read as signed; or, with
`FROM_TO_OVERFLOW = fault`, `RANGE` when the exact difference of the signed readings does not fit 32 bits (D12, U3). That
this `RANGE` comes before the `ALIGN` of a difference that is also misaligned is the model's choice (DESIGN CHOICE, log
entry 26). No instantiation computes it differently (R131). -/
def fromToOffset (c : Config) (fromAddress toAddress : Operand) : Except Cause Int :=
  let exact := readSigned toAddress - readSigned fromAddress
  match c.fromToOverflow with
  | .wrap => .ok (s32 (u32 exact))
  | .fault => if -(2 ^ 31) ≤ exact ∧ exact < 2 ^ 31 then .ok exact else .error .range

/-- A branch byte offset is word-aligned: `d mod 4 = 0`, on the offset and on nothing else (R44, R124). -/
abbrev branchAligned (d : Int) : Prop := d % 4 = 0

/-- The quotient `d / 4` lies within ±`BR_MAX_WORDS`; the bound is symmetric (R124, C1, U6). -/
abbrev branchInRange (c : Config) (d : Int) : Prop := -(c.brMaxWords : Int) ≤ d / 4 ∧ d / 4 ≤ c.brMaxWords

/-- The byte offset a construction form asks for; the base form leaves the displacement 0 (R123, R124, R126). -/
def formOffset (c : Config) : BranchForm → Except Cause Int
  | .base => .ok 0
  | .disp offset => .ok (readSigned offset)
  | .fromTo fromAddress toAddress => fromToOffset c fromAddress toAddress

end Sys2Proof.Machine
end

