-- ==== Sys2Proof/WellFormed.lean ====
section
/-! DEFINITION. Which operands an encoder command accepts. An operand wider than its field is legal to present (R24) and
is what the checks catch: an ill-formed command is one whose operands raise a fault, so that it has no word. -/

namespace Sys2Proof

open Machine

/-- `FIT` unless the test holds (R172). -/
def fitUnless (ok : Bool) : Option Cause := if ok then none else some .fit

/-- A register index in 0 .. 31 (R72). -/
def regFits (r : Operand) : Bool := readUnsigned r < 2 ^ params.regFieldBits

/-- An immediate the configured writer accepts: 0 .. 65535 when unsigned (R70), −32768 .. 32767 when signed (D11). -/
def immFits (imm : Operand) : Bool :=
  match params.imm16Writer with
  | .unsigned => readUnsigned imm < 2 ^ params.immBits
  | .signed => -(2 ^ (params.immBits - 1)) ≤ readSigned imm ∧ readSigned imm ≤ 2 ^ (params.immBits - 1) - 1

/-- An identifier in 0 .. 1023 (R71, D13). -/
def sprFits (id : Operand) : Bool :=
  match params.sprIdCheck with
  | .beforeSwap => readUnsigned id < 2 ^ params.sprBits
  | .afterSwap => swap10 (readUnsigned id) < 2 ^ params.sprBits

/-- What a branch form raises: `ALIGN` before `RANGE` (R124, R174, R175, R177); the base form never anything. -/
def formRaises (form : BranchForm) : Option Cause :=
  match formOffset params form with
  | .error c => some c
  | .ok d => if ¬ branchAligned d then some .align else if ¬ branchInRange params d then some .range else none

/-- The cause a command's operands raise, if any (R171). -/
def Instr.raises : Instr → Option Cause
  | .b form => formRaises form
  | .ba form => formRaises form
  | .bl form => formRaises form
  | .bla form => formRaises form
  | .addi destReg srcReg imm16 => fitUnless (regFits destReg && regFits srcReg && immFits imm16)
  | .addis destReg srcReg imm16 => fitUnless (regFits destReg && regFits srcReg && immFits imm16)
  | .ori destReg srcReg imm16 => fitUnless (regFits destReg && regFits srcReg && immFits imm16)
  | .mtspr srcReg sprId => fitUnless (regFits srcReg && sprFits sprId)
  | .li destReg imm16 => fitUnless (regFits destReg && immFits imm16)
  | .lis destReg imm16 => fitUnless (regFits destReg && immFits imm16)
  | .nop => none
  | .bctr => none

/-- A command whose operands every check admits. -/
def Instr.wellFormed (i : Instr) : Bool := i.raises.isNone

end Sys2Proof
end

