-- ==== Sys2Proof/Decode.lean ====
section
/-! DEFINITION. The layouts and the opcode table of the words the block emits (30_encoding.md), the decoder from such a
word to the encoder command that emits it, and the encoder. The block itself never decodes (R5 b, R77) and its commands
have no binary encoding (R81): log entry 9. -/

namespace Sys2Proof

open Machine

/-! ### Layouts (R61 to R66) -/

/-- A field descriptor: offset from the most significant end, width, signedness (R9, R16). -/
structure FieldDesc where
  name : String
  offset : Nat
  width : Nat
  signed : Bool
  deriving DecidableEq, Repr

/-- Layout BR (R62). -/
def layoutBR : List FieldDesc :=
  [⟨"OPCD", 0, 6, false⟩, ⟨"LI", 6, 24, true⟩, ⟨"AA", 30, 1, false⟩, ⟨"LK", 31, 1, false⟩]

/-- Layout IMM (R63). -/
def layoutIMM : List FieldDesc :=
  [⟨"OPCD", 0, 6, false⟩, ⟨"RGA", 6, 5, false⟩, ⟨"RGB", 11, 5, false⟩, ⟨"IMM", 16, 16, false⟩]

/-- Layout SPR (R64). -/
def layoutSPR : List FieldDesc :=
  [⟨"OPCD", 0, 6, false⟩, ⟨"RS", 6, 5, false⟩, ⟨"SPRF", 11, 10, false⟩, ⟨"XO", 21, 10, false⟩, ⟨"RSV", 31, 1, false⟩]

/-- Layout CTR (R65). -/
def layoutCTR : List FieldDesc :=
  [⟨"OPCD", 0, 6, false⟩, ⟨"BO", 6, 5, false⟩, ⟨"BI", 11, 5, false⟩, ⟨"RSV5", 16, 5, false⟩, ⟨"XO", 21, 10, false⟩,
    ⟨"LK", 31, 1, false⟩]

/-- The tiling law (R61): from position `at_` on, each field begins one past the end of the one before, and the last ends
with the word. -/
def tiles (at_ : Nat) : List FieldDesc → Bool
  | [] => at_ == params.wordBits
  | f :: fs => f.offset == at_ && tiles (at_ + f.width) fs

/-- The word whose fields hold the given values, each at its place (R61): a sum, the fields being disjoint. -/
def assemble (layout : List FieldDesc) (values : List Nat) : Word :=
  BitVec.ofNat 32 (List.zipWith (fun f v => v * 2 ^ (32 - f.offset - f.width)) layout values).sum

/-! ### The opcode table (R75) -/

/-- A row of the opcode table: the words it can emit are those `w` with `w & mask = pattern` (R75). -/
structure Row where
  mnemonic : String
  pattern : Word
  mask : Word
  deriving DecidableEq, Repr

/-- A row put together from its layout: the fields of fixed value, at their values, make the pattern, and all their bits
the mask (R74, R75). -/
def rowOf (mnemonic : String) (layout : List FieldDesc) (fixed : List (Option Nat)) : Row where
  mnemonic := mnemonic
  pattern := assemble layout (fixed.map fun v => v.getD 0)
  mask := assemble layout (List.zipWith (fun f v => if v.isSome then 2 ^ f.width - 1 else 0) layout fixed)

/-- The row of a command (R75): which fields of its layout are fixed, and at what. -/
def Instr.row : Instr → Row
  | .b _ => rowOf "b" layoutBR [some params.opcBranch, none, some 0, some 0]
  | .ba _ => rowOf "ba" layoutBR [some params.opcBranch, none, some 1, some 0]
  | .bl _ => rowOf "bl" layoutBR [some params.opcBranch, none, some 0, some 1]
  | .bla _ => rowOf "bla" layoutBR [some params.opcBranch, none, some 1, some 1]
  | .addi _ _ _ => rowOf "addi" layoutIMM [some params.opcAddi, none, none, none]
  | .addis _ _ _ => rowOf "addis" layoutIMM [some params.opcAddis, none, none, none]
  | .ori _ _ _ => rowOf "ori" layoutIMM [some params.opcOri, none, none, none]
  | .mtspr _ _ => rowOf "mtspr" layoutSPR [some params.opcX31, none, none, some params.xoMtspr, some params.rsvMtspr]
  | .li _ _ => rowOf "li" layoutIMM [some params.opcAddi, none, some 0, none]
  | .lis _ _ => rowOf "lis" layoutIMM [some params.opcAddis, none, some 0, none]
  | .nop => rowOf "nop" layoutIMM [some params.opcOri, some 0, some 0, some 0]
  | .bctr => rowOf "bctr" layoutCTR [some params.opcXl19, some 20, some 0, some 0, some 528, some 0]

/-- The opcode a command declares (R73). -/
def Instr.opcode : Instr → Opcode
  | .b _ => .branch
  | .ba _ => .branch
  | .bl _ => .branch
  | .bla _ => .branch
  | .addi _ _ _ => .addImmediate
  | .addis _ _ _ => .addImmediateShifted
  | .ori _ _ _ => .orImmediate
  | .mtspr _ _ => .moveToSpecialRegister
  | .li _ _ => .addImmediate
  | .lis _ _ => .addImmediateShifted
  | .nop => .orImmediate
  | .bctr => .branchToRegisterOnCondition

/-! ### Decoding an emitted word -/

/-- Why no encoder command emits a word. -/
inductive DecodeError where
  /-- Fewer than four bytes are left. -/
  | truncated
  /-- `W{0..5}` is none of the six opcodes (R73, R77). -/
  | unknownOpcode
  /-- The word offset is outside ±`BR_MAX_WORDS`: `LI = 0x800000`, which matches the mask and is never emitted (R75). -/
  | displacementNeverEmitted
  /-- Opcode 31 with other bits than `XO = 467`, `RSV = 0` (R74). -/
  | notMoveToSpr
  /-- Opcode 19 in a word other than `0x4E800420` (R74). -/
  | notBranchCtr
  deriving DecidableEq, Repr

/-- A number as an operand pattern. -/
def operandOf (n : Nat) : Operand := BitVec.ofNat _ n

/-- The immediate operand that leaves a value in the field `IMM` (R70, D11). -/
def immOperand (v : Nat) : Operand :=
  match params.imm16Writer with
  | .unsigned => operandOf v
  | .signed => BitVec.ofInt _ (sext params.immBits v)

/-- A word of layout BR: the displacement form that emits it; the flags pick the instantiation (R69, R74, R121). -/
def decodeBranch (w : Word) : Except DecodeError Instr :=
  let d := 4 * sext 24 (field w 6 24)
  if ¬ branchInRange params d then .error .displacementNeverEmitted
  else
    let form := BranchForm.disp (BitVec.ofInt _ d)
    .ok (match bitAt w 30, bitAt w 31 with
      | false, false => .b form
      | true, false => .ba form
      | false, true => .bl form
      | true, true => .bla form)

/-- A word of opcode 31 (R64, R74). -/
def decodeSpr (w : Word) : Except DecodeError Instr :=
  if field w 21 10 = params.xoMtspr ∧ field w 31 1 = params.rsvMtspr then
    .ok (.mtspr (operandOf (field w 6 5)) (operandOf (swap10 (field w 11 10))))
  else .error .notMoveToSpr

/-- The encoder command that emits a word, the most specific row first (R75): rows li, lis and nop are tried before
addi, addis and ori. -/
def decodeWord (w : Word) : Except DecodeError Instr :=
  let op := field w 0 6
  let rga := operandOf (field w 6 5)
  let rgb := operandOf (field w 11 5)
  let imm := immOperand (field w 16 16)
  if op = params.opcBranch then decodeBranch w
  else if op = params.opcAddi then .ok (if rgb = 0 then .li rga imm else .addi rga rgb imm)
  else if op = params.opcAddis then .ok (if rgb = 0 then .lis rga imm else .addis rga rgb imm)
  else if op = params.opcOri then .ok (if rga = 0 ∧ rgb = 0 ∧ imm = 0 then .nop else .ori rga rgb imm)
  else if op = params.opcX31 then decodeSpr w
  else if op = params.opcXl19 then (if w = params.bctrWord then .ok .bctr else .error .notBranchCtr)
  else .error .unknownOpcode

/-- Decoding any bytes: four of them, the most significant first (R42, R60), and the rest. -/
def decode : List Byte → Except DecodeError (Instr × List Byte)
  | b0 :: b1 :: b2 :: b3 :: rest =>
    match decodeWord (ofBytes b0 b1 b2 b3) with
    | .ok i => .ok (i, rest)
    | .error e => .error e
  | _ => .error .truncated

/-! ### Encoding (R62 to R65, R69 to R72) -/

/-- The value of `LI`: the word offset in 24-bit two's complement (R69). -/
def liField (form : BranchForm) : Nat :=
  match formOffset params form with
  | .ok d => ((d / 4) % 2 ^ 24).toNat
  | .error _ => 0

/-- The value of `IMM` (R70, D11). -/
def immField (imm : Operand) : Nat :=
  match params.imm16Writer with
  | .unsigned => readUnsigned imm
  | .signed => (readSigned imm % 2 ^ 16).toNat

/-- A word of layout BR (R62). -/
def wordBR (aa lk : Bool) (form : BranchForm) : Word :=
  assemble layoutBR [params.opcBranch, liField form, flagBit aa, flagBit lk]

/-- A word of layout IMM (R63). -/
def wordIMM (opc : Nat) (rga rgb imm : Operand) : Word :=
  assemble layoutIMM [opc, readUnsigned rga, readUnsigned rgb, immField imm]

/-- The word a well-formed command stands for, from its layout. -/
def Instr.word : Instr → Word
  | .b form => wordBR false false form
  | .ba form => wordBR true false form
  | .bl form => wordBR false true form
  | .bla form => wordBR true true form
  | .addi destReg srcReg imm16 => wordIMM params.opcAddi destReg srcReg imm16
  | .addis destReg srcReg imm16 => wordIMM params.opcAddis destReg srcReg imm16
  | .ori destReg srcReg imm16 => wordIMM params.opcOri destReg srcReg imm16
  | .mtspr srcReg sprId =>
    assemble layoutSPR [params.opcX31, readUnsigned srcReg, swap10 (readUnsigned sprId), params.xoMtspr, params.rsvMtspr]
  | .li destReg imm16 => wordIMM params.opcAddi destReg 0 imm16
  | .lis destReg imm16 => wordIMM params.opcAddis destReg 0 imm16
  | .nop => wordIMM params.opcOri 0 0 0
  | .bctr => assemble layoutCTR [params.opcXl19, 20, 0, 0, 528, 0]

/-- The word of a command; an ill-formed command has none (R172). -/
def encode (i : Instr) : Option Word := if i.wellFormed then some i.word else none

/-- The command the decoder names for the word of `i`: the displacement form of a branch, the most specific row of an
immediate encoder (R75). It has the same effect (R123, R126, R164). -/
def Instr.canonical : Instr → Instr
  | .b form => .b (canonicalForm form)
  | .ba form => .ba (canonicalForm form)
  | .bl form => .bl (canonicalForm form)
  | .bla form => .bla (canonicalForm form)
  | .addi destReg srcReg imm16 => if srcReg = 0 then .li destReg imm16 else .addi destReg srcReg imm16
  | .addis destReg srcReg imm16 => if srcReg = 0 then .lis destReg imm16 else .addis destReg srcReg imm16
  | .ori destReg srcReg imm16 =>
    if destReg = 0 ∧ srcReg = 0 ∧ imm16 = 0 then .nop else .ori destReg srcReg imm16
  | .mtspr srcReg sprId => .mtspr srcReg sprId
  | .li destReg imm16 => .li destReg imm16
  | .lis destReg imm16 => .lis destReg imm16
  | .nop => .nop
  | .bctr => .bctr
where
  /-- The displacement form with the same displacement. -/
  canonicalForm (form : BranchForm) : BranchForm :=
    match formOffset params form with
    | .ok d => .disp (BitVec.ofInt _ d)
    | .error _ => form

/-! ### The host's question -/

/-- The command the decoder reads from an instruction whose bits are `w`, numbered as spec/opcode_table.json numbers them:
the 32-bit word is laid out in its byte order (R42) and decoded. Bits above `nbits` are 0. -/
def decodeTableWord (nbits w : Nat) : Option Instr :=
  match decode (toBytes (BitVec.ofNat 32 (w % 2 ^ nbits))) with
  | .ok (i, _) => some i
  | .error _ => none

end Sys2Proof
end

