-- ==== Sys2Proof/Machine/Branch.lean ====
section
/-! DEFINITION. The branch family (41_branch_family.md): the three construction forms once, for any pair of flags, and the
four instantiations. -/

namespace Sys2Proof.Machine

/-- The base form (R123): opcode, then the two flag bits; `LI` is left 0. -/
def branchBase (c : Config) (aa lk : Bool) (s : State) : Except Cause State := do
  let s := newStep c .branch s
  let s ← wufStep c (flagBit aa) 1 c.aaOffset s
  wufStep c (flagBit lk) 1 c.lkOffset s

/-- The displacement form (R124) on a byte offset `d`: the base form, `ALIGN`, `RANGE` on the quotient, the signed
deposit. -/
def branchDisp (c : Config) (aa lk : Bool) (d : Int) (s : State) : Except Cause State := do
  let s ← branchBase c aa lk s
  require (branchAligned d) .align
  require (branchInRange c d) .range
  wsfStep c (d / 4) c.liBits 6 s

/-- A branch in any of its three forms (R120, R123, R124, R126). The difference of a `from_to` form is computed before
anything is checked, so that under `FROM_TO_OVERFLOW = fault` its `RANGE` comes before `ALIGN` (DESIGN CHOICE, log
entry 26). -/
def branch (c : Config) (aa lk : Bool) (form : BranchForm) (s : State) : Except Cause State :=
  match form with
  | .base => branchBase c aa lk s
  | .disp offset => branchDisp c aa lk (readSigned offset) s
  | .fromTo fromAddress toAddress => do
    let d ← fromToOffset c fromAddress toAddress
    branchDisp c aa lk d s

/-- `Branch` (R127): relative, no link. -/
def execB (form : BranchForm) (s : State) : Host.Outcome State Fault Refusal :=
  .next (perform (branch params false false form) s)

/-- `BranchAbsolute` (R128): absolute, no link; nothing is computed differently (R131). -/
def execBa (form : BranchForm) (s : State) : Host.Outcome State Fault Refusal :=
  .next (perform (branch params true false form) s)

/-- `BranchLink` (R129): relative, link. -/
def execBl (form : BranchForm) (s : State) : Host.Outcome State Fault Refusal :=
  .next (perform (branch params false true form) s)

/-- `BranchAbsoluteLink` (R130): absolute, link. -/
def execBla (form : BranchForm) (s : State) : Host.Outcome State Fault Refusal :=
  .next (perform (branch params true true form) s)

end Sys2Proof.Machine
end

