-- ==== Sys2Proof/Machine/FixedShape.lean ====
section
/-! DEFINITION. The fixed-shape encoders (42_fixed_shape.md). -/

namespace Sys2Proof.Machine

/-- `IMMFORM(op, dest_reg, src_reg, imm16)` (R140): the first register operand goes to offset 6, the second to offset 11,
for all three opcodes. -/
def immForm (c : Config) (op : Opcode) (destReg srcReg imm16 : Operand) (s : State) : Except Cause State := do
  let s := newStep c op s
  let s ← regStep c destReg 6 s
  let s ← regStep c srcReg 11 s
  immStep c imm16 s

/-- The steps of `MoveToSpecialPurposeRegister` (R146). -/
def moveToSpr (c : Config) (srcReg sprId : Operand) (s : State) : Except Cause State := do
  let s := newStep c .moveToSpecialRegister s
  let s ← regStep c srcReg 6 s
  let s ← sprStep c sprId s
  let s ← wufStep c c.xoMtspr 10 21 s
  wufStep c c.rsvMtspr 1 31 s

/-- The steps of `BranchCounterRegister` (R148): the constant word cut as layout CTR (R65, D16). -/
def branchCtr (c : Config) (s : State) : Except Cause State := do
  let s := newStep c .branchToRegisterOnCondition s
  let s ← wufStep c 20 5 6 s
  let s ← wufStep c 0 5 11 s
  let s ← wufStep c 0 5 16 s
  let s ← wufStep c 528 10 21 s
  wufStep c 0 1 31 s

/-- `AddImmediate` (R141). -/
def execAddi (destReg srcReg imm16 : Operand) (s : State) : Host.Outcome State Fault Refusal :=
  .next (perform (immForm params .addImmediate destReg srcReg imm16) s)

/-- `AddImmediateShifted` (R142). -/
def execAddis (destReg srcReg imm16 : Operand) (s : State) : Host.Outcome State Fault Refusal :=
  .next (perform (immForm params .addImmediateShifted destReg srcReg imm16) s)

/-- `OrImmediate` (R143). -/
def execOri (destReg srcReg imm16 : Operand) (s : State) : Host.Outcome State Fault Refusal :=
  .next (perform (immForm params .orImmediate destReg srcReg imm16) s)

/-- `MoveToSpecialPurposeRegister` (R146). -/
def execMtspr (srcReg sprId : Operand) (s : State) : Host.Outcome State Fault Refusal :=
  .next (perform (moveToSpr params srcReg sprId) s)

/-- `BranchCounterRegister` (R148). -/
def execBctr (s : State) : Host.Outcome State Fault Refusal :=
  .next (perform (branchCtr params) s)

end Sys2Proof.Machine
end

