-- ==== Sys2Proof/Machine/Derived.lean ====
section
/-! DEFINITION. The derived encoders (43_derived.md): the general encoder with constant operands (R160). -/

namespace Sys2Proof.Machine

/-- `LoadImmediate(dest_reg, imm16)` is `AddImmediate(dest_reg, 0, imm16)` (R161). -/
def execLi (destReg imm16 : Operand) (s : State) : Host.Outcome State Fault Refusal :=
  .next (perform (immForm params .addImmediate destReg 0 imm16) s)

/-- `LoadImmediateShifted(dest_reg, imm16)` is `AddImmediateShifted(dest_reg, 0, imm16)` (R162). -/
def execLis (destReg imm16 : Operand) (s : State) : Host.Outcome State Fault Refusal :=
  .next (perform (immForm params .addImmediateShifted destReg 0 imm16) s)

/-- `NoOperation()` is `OrImmediate(0, 0, 0)` (R163). -/
def execNop (s : State) : Host.Outcome State Fault Refusal :=
  .next (perform (immForm params .orImmediate 0 0 0) s)

end Sys2Proof.Machine
end

