-- ==== Sys2Proof/Machine/Dispatch.lean ====
section
/-! DEFINITION. One arm per constructor of Instr, each one call of its meaning. -/

namespace Sys2Proof.Machine

def exec (i : Instr) (s : State) : Host.Outcome State Fault Refusal :=
  match i with
  | .b form => Sys2Proof.Machine.execB form s
  | .ba form => Sys2Proof.Machine.execBa form s
  | .bl form => Sys2Proof.Machine.execBl form s
  | .bla form => Sys2Proof.Machine.execBla form s
  | .addi destReg srcReg imm16 => Sys2Proof.Machine.execAddi destReg srcReg imm16 s
  | .addis destReg srcReg imm16 => Sys2Proof.Machine.execAddis destReg srcReg imm16 s
  | .ori destReg srcReg imm16 => Sys2Proof.Machine.execOri destReg srcReg imm16 s
  | .mtspr srcReg sprId => Sys2Proof.Machine.execMtspr srcReg sprId s
  | .li destReg imm16 => Sys2Proof.Machine.execLi destReg imm16 s
  | .lis destReg imm16 => Sys2Proof.Machine.execLis destReg imm16 s
  | .nop => Sys2Proof.Machine.execNop s
  | .bctr => Sys2Proof.Machine.execBctr s

end Sys2Proof.Machine
end

