-- ==== Sys2Proof/Machine/Primitives.lean ====
section
/-! DEFINITION. The three primitive commands (40_bitfield_word.md). -/

namespace Sys2Proof.Machine

/-- `NEW(op)` (R101): never faults. -/
def execNew (op : Opcode) (s : State) : Host.Outcome State Fault Refusal :=
  .next (perform (fun s => .ok (newStep params op s)) s)

/-- `WUF(value, width, offset)` (R102). -/
def execWuf (value : Operand) (width offset : FieldPort) (s : State) : Host.Outcome State Fault Refusal :=
  .next (perform (wufStep params (readUnsigned value) width.val offset.val) s)

/-- `WSF(value, width, offset)` (R104). -/
def execWsf (value : Operand) (width offset : FieldPort) (s : State) : Host.Outcome State Fault Refusal :=
  .next (perform (wsfStep params (readSigned value) width.val offset.val) s)

end Sys2Proof.Machine
end

