-- ==== Sys2Proof/Machine/Commands.lean ====
section
/-! DEFINITION. Performing any command of the block (R81), and what an instance does with the event presented to it
(R185, R200). -/

namespace Sys2Proof.Machine

/-- A command: a primitive, or an encoder (R81). -/
def execCommand (c : Command) (s : State) : Host.Outcome State Fault Refusal :=
  match c with
  | .new op => execNew op s
  | .wuf value width offset => execWuf value width offset s
  | .wsf value width offset => execWsf value width offset s
  | .instr i => exec i s

/-- One event at the inputs: reset (R200), one command (R185 b), or a use the spec gives no meaning to, which the model
refuses (R48, R200, U10). -/
def execRequest (r : Request) (s : State) : Host.Outcome State Fault Refusal :=
  match r with
  | .reset => .next s.assertReset
  | .command c => execCommand c s
  | .resetDuring _ => .refused .overlappingUse
  | .commandDuring _ _ => .refused .overlappingUse

/-- The instance takes the first event presented to it. With nothing presented it stays as it is: it steps only when a
command is presented (R19), and reading it changes nothing (R46, R210). -/
def takeRequest (s : State) : Host.Outcome State Fault Refusal :=
  match s.requests with
  | [] => .next s
  | r :: rest => execRequest r (s.withRequests rest)

/-- The controller presents an encoder command before everything else it has to present. -/
def presentInstr (i : Instr) (s : State) : State := s.withRequests (.command (.instr i) :: s.requests)

end Sys2Proof.Machine
end

