-- ==== Sys2Proof/Machine/Step.lean ====
section
/-! DEFINITION. One step of an instance, and how the host places an instruction for the next step. -/

namespace Sys2Proof.Machine

/-- One step: the instance takes the first event presented to it. -/
def step (s : State) : Host.Outcome State Fault Refusal := takeRequest s

/-- The state in which the encoder command read from the bits `w` is the next event presented. The block fetches nothing
(R28): this stands for the controller presenting that command (log entry 2). Bits that no command emits leave the state as
it is. -/
def State.withFetchWord (s : State) (nbits w : Nat) : State :=
  match decodeTableWord nbits w with
  | some i => presentInstr i s
  | none => s

end Sys2Proof.Machine
end

