-- ==== Sys2Proof/Machine/Instances.lean ====
section
/-! DEFINITION. Several instances (R33, R181): each has its own `W`, `PH` and `FC`; a step is a step of one of them. -/

namespace Sys2Proof.Machine

/-- A step of the instance numbered `k` among several; the others are not touched (R33, R181). An instance that is not
there leaves all as they are. -/
def stepInstance (k : Nat) (ss : List State) : Host.Outcome (List State) Fault Refusal :=
  match ss[k]? with
  | none => .next ss
  | some s =>
    match step s with
    | .next t => .next (ss.set k t)
    | .fault r => .fault r
    | .refused r => .refused r

end Sys2Proof.Machine
end

