-- ==== Sys2Proof/Safety.lean ====
section
/-! DEFINITION. What claims are stated in: live states, the invariant of an instance, which causes a command can raise,
deposits, and the branch instantiations by their flags. -/

namespace Sys2Proof

open Machine

/-- An instance that takes commands: `PH` is `IDLE` or `OPEN`. A run that ends in `FAULT` has produced no word (R179). -/
abbrev Machine.State.Live (s : State) : Prop := s.ph ≠ .fault

/-- The invariant of an instance: in `IDLE`, `W` holds 0 (R22); `FC` is `NONE` exactly when `PH` is not `FAULT` (R23). -/
abbrev Machine.State.Inv (s : State) : Prop := (s.ph = .idle → s.w = 0) ∧ (s.fc = none ↔ s.ph ≠ .fault)

/-- The causes a branch form can raise (R171). -/
def BranchForm.causes : BranchForm → List Cause
  | .base => []
  | .disp _ => [.align, .range]
  | .fromTo _ _ => [.align, .range]

/-- The causes an encoder command can raise (R171). -/
def Instr.causes : Instr → List Cause
  | .b form => form.causes
  | .ba form => form.causes
  | .bl form => form.causes
  | .bla form => form.causes
  | .addi _ _ _ => [.fit]
  | .addis _ _ _ => [.fit]
  | .ori _ _ _ => [.fit]
  | .mtspr _ _ => [.fit]
  | .li _ _ => [.fit]
  | .lis _ _ => [.fit]
  | .nop => []
  | .bctr => []

/-- The causes a command can raise (R171). -/
def Command.causes : Command → List Cause
  | .new _ => []
  | .wuf _ _ _ => [.order, .span, .fit]
  | .wsf _ _ _ => [.order, .span, .fit]
  | .instr i => i.causes

/-- The field a command deposits into, as offset and width: `WUF` and `WSF` only (R102, R104). -/
def Command.deposit : Command → Option (Nat × Nat)
  | .new _ => none
  | .wuf _ width offset => some (offset.val, width.val)
  | .wsf _ width offset => some (offset.val, width.val)
  | .instr _ => none

/-- The number a deposit writes into its field: the value of `WUF`, the two's-complement pattern of `WSF` (R102, R105). -/
def Command.depositValue : Command → Nat
  | .new _ => 0
  | .wuf value _ _ => value.toNat
  | .wsf value width _ => (value.toInt % 2 ^ width.val).toNat
  | .instr _ => 0

/-- The branch instantiation with the given flags (R121). -/
def branchInstr (aa lk : Bool) (form : BranchForm) : Instr :=
  match aa, lk with
  | false, false => .b form
  | true, false => .ba form
  | false, true => .bl form
  | true, true => .bla form

/-- Two fields share no bit position (R61). -/
abbrev disjointFields (f g : Nat × Nat) : Prop := f.1 + f.2 ≤ g.1 ∨ g.1 + g.2 ≤ f.1

end Sys2Proof
end

