-- ==== Sys2Proof/Certificates/Slice0/Obligations.lean ====
section
/-! DEFINITION. The statements for the provers, in the order of the spec's rules. In their names and docstrings a live state
is one whose phase is not `FAULT`. -/

open Sys2Proof Sys2Proof.Machine

/-! ### Reset and the phase -/

/-- R32: the state after reset, its outputs, and the word of the first `NEW(BRANCH)`. -/
def Obligations.ResetState : Prop :=
  State.reset.w = 0x00000000#32 ∧ State.reset.ph = .idle ∧ State.reset.fc = none ∧ State.reset.faultCode = 0 ∧
  State.reset.wordValid = false ∧ State.reset.faultOut = false ∧ State.reset.wordOut = none ∧
  State.reset.bytesOut = none ∧
  ∃ t, execCommand (.new .branch) State.reset = .next t ∧ t.wordOut = some 0x48000000#32

/-- R200: asserting reset, in any phase, gives the reset values; only reset leaves `FAULT`; only reset reaches `IDLE`.
The fourth clause, that the step is refused when a reset arrives during a command, is the model's choice (log entry
10): R200 gives that use no meaning, and it is U10 that says refuse. -/
def Obligations.OnlyResetRecovers : Prop :=
  (∀ (s : State) (rest : List Request), s.requests = .reset :: rest →
    ∃ t, step s = .next t ∧ t.w = 0 ∧ t.ph = .idle ∧ t.fc = none ∧ t.wordValid = false ∧ t.faultOut = false) ∧
  (∀ s t : State, step s = .next t → s.ph = .fault → t.ph ≠ .fault → ∃ rest, s.requests = .reset :: rest) ∧
  (∀ s t : State, step s = .next t → s.ph ≠ .idle → t.ph = .idle → ∃ rest, s.requests = .reset :: rest) ∧
  (∀ (s : State) (c : Command) (rest : List Request), s.requests = .resetDuring c :: rest →
    step s = .refused .overlappingUse)

/-- R22, R23: the invariant holds after reset, whatever the controller goes on to present. -/
def Obligations.InvariantAtReset : Prop := ∀ rs : List Request, (State.reset.withRequests rs).Inv

/-- R22, R23: in `IDLE` the word is 0, and `FC` is `NONE` exactly when `PH` is not `FAULT`: every step keeps it, from
every state that has it. -/
def Obligations.StepKeepsInvariant : Prop := ∀ s t : State, s.Inv → step s = .next t → t.Inv

/-- R22: where each command takes the phase. -/
def Obligations.PhaseTransitions : Prop :=
  ∀ (c : Command) (s t : State), execCommand c s = .next t →
    (s.ph = .fault → t.ph = .fault) ∧
    (s.ph = .opened → t.ph = .opened ∨ t.ph = .fault) ∧
    (s.ph = .idle → t.ph = .opened ∨ t.ph = .fault) ∧
    (s.ph = .idle → c.deposit ≠ none → t.ph = .fault)

/-- R202: in `IDLE` a field write raises `ORDER`; `NEW` and every encoder command do not, `NEW` and every encoder
command with admitted operands open a word, and any command that does not fault does; in `OPEN` no command raises
`ORDER`. -/
def Obligations.FirstCommandAfterReset : Prop :=
  (∀ (s : State) (value : Operand) (width offset : FieldPort), s.ph = .idle →
    execCommand (.wuf value width offset) s = .next (s.raise .order) ∧
    execCommand (.wsf value width offset) s = .next (s.raise .order)) ∧
  (∀ (s : State) (op : Opcode), s.ph = .idle → ∃ t, execCommand (.new op) s = .next t ∧ t.ph = .opened) ∧
  (∀ (s : State) (i : Instr), s.ph = .idle → i.wellFormed = true →
    ∃ t, execCommand (.instr i) s = .next t ∧ t.ph = .opened) ∧
  (∀ (s : State) (i : Instr), s.ph = .idle → execCommand (.instr i) s ≠ .next (s.raise .order)) ∧
  (∀ (s t : State) (c : Command), s.ph = .idle → execCommand c s = .next t → t.ph ≠ .fault → t.ph = .opened) ∧
  (∀ (s : State) (c : Command), s.ph = .opened → execCommand c s ≠ .next (s.raise .order))

/-! ### Faults -/

/-- R178: an effect that raises a cause sets `PH` and `FC` and leaves `W`, whatever it did before; so for every
command that faults, which writes nothing else and hides the word. -/
def Obligations.FaultEntry : Prop :=
  (∀ (effect : State → Except Cause State) (k : Cause) (s : State), s.Live → effect s = .error k →
    (perform effect s).ph = .fault ∧ (perform effect s).fc = some k ∧ (perform effect s).w = s.w ∧
    (perform effect s).wordValid = false ∧ (perform effect s).faultOut = true) ∧
  ∀ (c : Command) (s t : State), s.Live → execCommand c s = .next t → t.ph = .fault →
    t.w = s.w ∧ t.requests = s.requests ∧ (∃ k, t.fc = some k) ∧ t.wordValid = false ∧ t.faultOut = true ∧
    t.wordOut = none ∧ t.bytesOut = none

/-- R179: in `FAULT` every command has no effect on `W`, `PH` or `FC`, and only reset leaves it; the first cause
stays. -/
def Obligations.FaultIsTerminal : Prop :=
  (∀ (s : State) (c : Command), s.ph = .fault → execCommand c s = .next s) ∧
  (∀ (s : State) (c : Command) (rest : List Request), s.ph = .fault → s.requests = .command c :: rest →
    step s = .next (s.withRequests rest)) ∧
  (∀ s t : State, s.ph = .fault → step s = .next t → (∀ rest, s.requests ≠ .reset :: rest) →
    t.w = s.w ∧ t.ph = s.ph ∧ t.fc = s.fc)

/-- R171: the numeric codes, and that a command raises only the causes the table lists for it; `ORDER` only in `IDLE`.
In particular `NEW`, the four base forms, `BranchCounterRegister` and `NoOperation` never fault. -/
def Obligations.CausesByCommand : Prop :=
  (causeCode params none = 0 ∧ causeCode params (some .fit) = 1 ∧ causeCode params (some .span) = 2 ∧
    causeCode params (some .align) = 3 ∧ causeCode params (some .range) = 4 ∧ causeCode params (some .order) = 5) ∧
  ∀ (c : Command) (s t : State), s.Live → execCommand c s = .next t → t.ph = .fault →
    ∃ k ∈ c.causes, t.fc = some k ∧ (k = .order → s.ph = .idle)

/-- R172, R174, R175, R177: on a live state a command whose operands raise a cause takes exactly that fault. -/
def Obligations.IllFormedOperandsRaise : Prop :=
  ∀ (i : Instr) (k : Cause) (s : State), s.Live → i.raises = some k → exec i s = .next (s.raise k)

/-! ### The primitives -/

/-- R101: `NEW(op)` clears the word, writes the opcode into its top six bits and opens it; in `FAULT` it has no
effect. -/
def Obligations.NewStartsWord : Prop :=
  (∀ (op : Opcode) (s : State), s.Live →
    execNew op s = .next (s.openWith (BitVec.ofNat 32 (opcodeVal params op) <<< 26))) ∧
  (∀ (op : Opcode) (s : State), s.ph = .fault → execNew op s = .next s)

/-- R102: the outcome of `WUF(value, width, offset)`, its checks in order. -/
def Obligations.WufOutcome : Prop :=
  ∀ (value : Operand) (width offset : FieldPort) (s : State),
    execWuf value width offset s = .next
      (if s.ph = .fault then s
      else if s.ph = .idle then s.raise .order
      else if 32 < offset.val + width.val then s.raise .span
      else if 2 ^ width.val ≤ value.toNat then s.raise .fit
      else s.setW (s.w ||| BitVec.ofNat 32 (value.toNat * 2 ^ (32 - offset.val - width.val))))

/-- R104: the outcome of `WSF(value, width, offset)`, its checks in order: the sign bit, then the low `width − 1` bits
of the raw two's-complement pattern. No branch encoder, its only user, reaches the lower bound: with it and without it
every branch does the same. -/
def Obligations.WsfOutcome : Prop :=
  (∀ (value : Operand) (width offset : FieldPort) (s : State),
    execWsf value width offset s = .next
      (if s.ph = .fault then s
      else if s.ph = .idle then s.raise .order
      else if width.val = 0 then s.raise .fit
      else if 32 < offset.val + width.val then s.raise .span
      else if value.toInt < -(2 ^ (width.val - 1)) ∨ 2 ^ (width.val - 1) ≤ value.toInt then s.raise .fit
      else s.setW (s.w ||| BitVec.ofNat 32 ((if value.toInt < 0 then 1 else 0) * 2 ^ (31 - offset.val)) |||
        BitVec.ofNat 32 (value.toNat % 2 ^ (width.val - 1) * 2 ^ (32 - offset.val - width.val))))) ∧
  ∀ (aa lk : Bool) (form : BranchForm) (s : State),
    branch { params with wsfNegCheck := .mask } aa lk form s = branch params aa lk form s

/-- The spec's R105, [derived: from R104]: within range, `WSF` of a value is `WUF` of its `width`-bit two's-complement
pattern, and on a clear field the value is recovered by sign extension. -/
def Obligations.WsfIsTwosComplement : Prop :=
  ∀ (value : Operand) (width offset : FieldPort) (s : State), s.ph = .opened → 1 ≤ width.val →
    offset.val + width.val ≤ 32 → -(2 ^ (width.val - 1)) ≤ value.toInt → value.toInt ≤ 2 ^ (width.val - 1) - 1 →
    ∃ t, execWsf value width offset s = .next t ∧
      execWuf (BitVec.ofInt _ (value.toInt % 2 ^ width.val)) width offset s = .next t ∧
      (field s.w offset.val width.val = 0 →
        (field t.w offset.val width.val : Int) = value.toInt % 2 ^ width.val ∧
        sext width.val (field t.w offset.val width.val) = value.toInt)

/-- R108, R103: an unsigned deposit that is admitted leaves the OR of old and new in the field; on a clear field the
value reads back exactly. -/
def Obligations.WufReadsBack : Prop :=
  ∀ (value : Operand) (width offset : FieldPort) (s : State), s.ph = .opened → offset.val + width.val ≤ 32 →
    value.toNat < 2 ^ width.val →
    ∃ t, execWuf value width offset s = .next t ∧ t.ph = .opened ∧
      field t.w offset.val width.val = value.toNat ||| field s.w offset.val width.val ∧
      (field s.w offset.val width.val = 0 → field t.w offset.val width.val = value.toNat)

/-- R13, R102 f: a deposit changes no bit outside its field; on a clear field it sets the field to the value. -/
def Obligations.DepositTouchesOnlyItsField : Prop :=
  ∀ (w : Word) (v width offset : Nat), offset + width ≤ 32 → v < 2 ^ width →
    (field w offset width = 0 → field (dep w v width offset) offset width = v) ∧
    (∀ a, a < 32 → a < offset ∨ offset + width ≤ a → bitAt (dep w v width offset) a = bitAt w a)

/-- The spec's R20, [derived]: a field write, whatever its outcome, clears no bit of `W`. -/
def Obligations.OneBitsOnlyGrow : Prop :=
  ∀ (c : Command) (s t : State), c.deposit ≠ none → execCommand c s = .next t → s.w &&& t.w = s.w

/-- R20: no command's outcome depends on the bits already in `W`: the phase and cause after it are the same for any two
words. -/
def Obligations.OutcomeIgnoresWord : Prop :=
  ∀ (c : Command) (s : State) (x : Word), ∃ t u, execCommand c s = .next t ∧ execCommand c (s.setW x) = .next u ∧
    u.ph = t.ph ∧ u.fc = t.fc ∧ u.requests = t.requests

/-- The spec's R182, [derived]: every command that begins a construction clears `W` first, so that the word it offers
does not depend on an earlier one. -/
def Obligations.NoBitSurvives : Prop :=
  ∀ (c : Command) (s : State) (x : Word), c.deposit = none → s.Live →
    ∃ t u, execCommand c s = .next t ∧ execCommand c (s.setW x) = .next u ∧ u.wordOut = t.wordOut

/-- The spec's R107, [derived]: a sequence of field writes, none of which faults, run by the machine: every other
order of it ends in the same state. -/
def Obligations.DepositOrderIrrelevant : Prop :=
  ∀ (cs ds : List Command) (s t : State), (∀ c ∈ cs, c.deposit ≠ none) → cs.Perm ds → s.ph = .opened →
    core.run cs.length (s.withRequests (cs.map .command)) = .next t → t.ph = .opened →
    core.run ds.length (s.withRequests (ds.map .command)) = .next t

/-- The spec's R107, [derived]: after field writes into pairwise disjoint clear fields, none of which faults, run by
the machine, each field reads back as its value, as its two's-complement pattern for `WSF`. -/
def Obligations.DisjointDepositsReadBack : Prop :=
  ∀ (cs : List Command) (s t : State),
    cs.Pairwise (fun c d => ∀ f ∈ c.deposit, ∀ g ∈ d.deposit, disjointFields f g) →
    (∀ c ∈ cs, ∃ f, c.deposit = some f ∧ field s.w f.1 f.2 = 0) → s.ph = .opened →
    core.run cs.length (s.withRequests (cs.map .command)) = .next t → t.ph = .opened →
    ∀ c ∈ cs, ∀ f ∈ c.deposit, field t.w f.1 f.2 = c.depositValue

/-! ### The branch family -/

/-- R123: the base forms give the four base words and never fault; displacement 0 gives the same. -/
def Obligations.BranchBaseWords : Prop :=
  ∀ s : State, s.Live →
    exec (.b .base) s = .next (s.openWith 0x48000000#32) ∧ exec (.ba .base) s = .next (s.openWith 0x48000002#32) ∧
    exec (.bl .base) s = .next (s.openWith 0x48000001#32) ∧ exec (.bla .base) s = .next (s.openWith 0x48000003#32) ∧
    ∀ aa lk : Bool, exec (branchInstr aa lk (.disp 0)) s = exec (branchInstr aa lk .base) s

/-- The spec's R125, [derived: from R123, R124 and R105]: the closed form of the displacement form, for all four
instantiations. -/
def Obligations.BranchClosedForm : Prop :=
  ∀ (offset : Operand) (s : State), s.Live → offset.toInt % 4 = 0 → -33554428 ≤ offset.toInt →
    offset.toInt ≤ 33554428 →
    exec (.b (.disp offset)) s = .next (s.openWith (0x48000000#32 ||| (u32 offset.toInt &&& 0x03FFFFFC#32))) ∧
    exec (.ba (.disp offset)) s = .next (s.openWith (0x48000002#32 ||| (u32 offset.toInt &&& 0x03FFFFFC#32))) ∧
    exec (.bl (.disp offset)) s = .next (s.openWith (0x48000001#32 ||| (u32 offset.toInt &&& 0x03FFFFFC#32))) ∧
    exec (.bla (.disp offset)) s = .next (s.openWith (0x48000003#32 ||| (u32 offset.toInt &&& 0x03FFFFFC#32)))

/-- R174, R175: a displacement, given or computed as a difference, raises `ALIGN` when it is not a multiple of 4, and
otherwise `RANGE` when it is outside −33554428 .. 33554428 bytes. -/
def Obligations.BranchFaults : Prop :=
  ∀ (aa lk : Bool) (s : State), s.Live →
    (∀ offset : Operand, offset.toInt % 4 ≠ 0 → exec (branchInstr aa lk (.disp offset)) s = .next (s.raise .align)) ∧
    (∀ offset : Operand, offset.toInt % 4 = 0 → offset.toInt < -33554428 ∨ 33554428 < offset.toInt →
      exec (branchInstr aa lk (.disp offset)) s = .next (s.raise .range)) ∧
    (∀ f t : Operand, (t - f).toInt % 4 ≠ 0 → exec (branchInstr aa lk (.fromTo f t)) s = .next (s.raise .align)) ∧
    (∀ f t : Operand, (t - f).toInt % 4 = 0 → (t - f).toInt < -33554428 ∨ 33554428 < (t - f).toInt →
      exec (branchInstr aa lk (.fromTo f t)) s = .next (s.raise .range))

/-- R126: the address form is the displacement form on the wrapped 32-bit difference, words and faults alike, for all
four instantiations; equal addresses give the base form. -/
def Obligations.FromToDelegates : Prop :=
  ∀ (aa lk : Bool) (f t : Operand) (s : State),
    exec (branchInstr aa lk (.fromTo f t)) s = exec (branchInstr aa lk (.disp (t - f))) s ∧
    exec (branchInstr aa lk (.fromTo f f)) s = exec (branchInstr aa lk .base) s

/-- The spec's R132, [derived: from R125]: the laws of the family: round trip of the displacement, `from_to` against
the direct offset, the opcode, and the two flags. -/
def Obligations.BranchFamilyLaws : Prop :=
  (∀ (aa lk : Bool) (offset : Operand) (s : State), s.Live → offset.toInt % 4 = 0 → -33554428 ≤ offset.toInt →
    offset.toInt ≤ 33554428 →
    ∃ t, exec (branchInstr aa lk (.disp offset)) s = .next t ∧ t.ph = .opened ∧
      4 * sext 24 (field t.w 6 24) = offset.toInt) ∧
  (∀ (aa lk : Bool) (f t : Operand) (s : State),
    exec (branchInstr aa lk (.fromTo f t)) s = exec (branchInstr aa lk (.disp (t - f))) s) ∧
  (∀ (aa lk : Bool) (form : BranchForm) (s t : State), s.Live → exec (branchInstr aa lk form) s = .next t →
    t.ph = .opened → field t.w 0 6 = 18 ∧ bitAt t.w 30 = aa ∧ bitAt t.w 31 = lk)

/-! ### The fixed-shape encoders -/

/-- The spec's R144, [derived: from R140 and R102]: the closed form of the three immediate encoders, their fields, the
one fault `FIT`, and injectivity. The opcode 14 of `AddImmediate` is not the source's (log entry 11). -/
def Obligations.ImmediateClosedForm : Prop :=
  ∀ p ∈ [(Instr.addi, 14), (Instr.addis, 15), (Instr.ori, 24)],
    (∀ (a b i : Operand) (s : State), s.Live → a.toNat < 32 → b.toNat < 32 → i.toNat < 65536 →
      exec (p.1 a b i) s = .next (s.openWith
        (BitVec.ofNat 32 p.2 <<< 26 ||| BitVec.ofNat 32 a.toNat <<< 21 ||| BitVec.ofNat 32 b.toNat <<< 16 |||
          BitVec.ofNat 32 i.toNat)) ∧
      ∃ t, exec (p.1 a b i) s = .next t ∧ field t.w 0 6 = p.2 ∧ field t.w 6 5 = a.toNat ∧
        field t.w 11 5 = b.toNat ∧ field t.w 16 16 = i.toNat) ∧
    (∀ (a b i : Operand) (s : State), s.Live → 32 ≤ a.toNat ∨ 32 ≤ b.toNat ∨ 65536 ≤ i.toNat →
      exec (p.1 a b i) s = .next (s.raise .fit)) ∧
    (∀ (a b i a' b' i' : Operand) (s t : State), s.Live → exec (p.1 a b i) s = .next t →
      exec (p.1 a' b' i') s = .next t → t.ph = .opened → a = a' ∧ b = b' ∧ i = i')

/-- R145: the half swap moves each half, stays within ten bits and is its own inverse; the rule's values. -/
def Obligations.HalfSwap : Prop :=
  (swap10 1 = 32 ∧ swap10 8 = 256 ∧ swap10 9 = 288 ∧ swap10 32 = 1 ∧ swap10 272 = 520 ∧ swap10 1023 = 1023 ∧
    swap10 0 = 0) ∧
  ∀ n : Nat, n < 1024 → swap10 n < 1024 ∧ swap10 n / 32 = n % 32 ∧ swap10 n % 32 = n / 32 ∧ swap10 (swap10 n) = n

/-- R146: the move to a special register: the word, or `FIT` for a register above 31 or an identifier above 1023. -/
def Obligations.MoveToSprOutcome : Prop :=
  ∀ (srcReg sprId : Operand) (s : State), s.Live →
    (srcReg.toNat < 32 → sprId.toNat < 1024 →
      exec (.mtspr srcReg sprId) s = .next (s.openWith (0x7C0003A6#32 ||| BitVec.ofNat 32 srcReg.toNat <<< 21 |||
        BitVec.ofNat 32 (sprId.toNat % 32) <<< 16 ||| BitVec.ofNat 32 (sprId.toNat / 32) <<< 11))) ∧
    (32 ≤ srcReg.toNat ∨ 1024 ≤ sprId.toNat → exec (.mtspr srcReg sprId) s = .next (s.raise .fit))

/-- The spec's R147, [derived: from R145 and R146]: the fixed fields, the two operands read back, and injectivity. -/
def Obligations.MoveToSprLaws : Prop :=
  (∀ (srcReg sprId : Operand) (s : State), s.Live → srcReg.toNat < 32 → sprId.toNat < 1024 →
    ∃ t, exec (.mtspr srcReg sprId) s = .next t ∧ t.ph = .opened ∧ field t.w 0 6 = 31 ∧ field t.w 21 10 = 467 ∧
      field t.w 31 1 = 0 ∧ field t.w 6 5 = srcReg.toNat ∧ swap10 (field t.w 11 10) = sprId.toNat) ∧
  (∀ (r n r' n' : Operand) (s t : State), s.Live → exec (.mtspr r n) s = .next t → exec (.mtspr r' n') s = .next t →
    t.ph = .opened → r = r' ∧ n = n')

/-- R148: `BranchCounterRegister` always gives the one word, which the single 26-bit deposit gives too. -/
def Obligations.BranchCtrWord : Prop :=
  ∀ s : State, s.Live → exec .bctr s = .next (s.openWith 0x4E800420#32) ∧
    0x4E800420#32 = params.bctrWord ∧
    (wufStep params 0x2800420 26 6 (newStep params .branchToRegisterOnCondition s)).toOption =
      some (s.openWith 0x4E800420#32)

/-! ### The derived encoders -/

/-- R162, R163: each is its general encoder with constant operands, the word that gives, and its fault. -/
def Obligations.ShiftedAndNop : Prop :=
  (∀ (r i : Operand) (s : State), exec (.lis r i) s = exec (.addis r 0 i) s) ∧
  (∀ s : State, exec .nop s = exec (.ori 0 0 0) s) ∧
  (∀ (r i : Operand) (s : State), s.Live → r.toNat < 32 → i.toNat < 65536 →
    exec (.lis r i) s = .next (s.openWith (0x3C000000#32 ||| BitVec.ofNat 32 r.toNat <<< 21 ||| BitVec.ofNat 32 i.toNat))) ∧
  (∀ (r i : Operand) (s : State), s.Live → 32 ≤ r.toNat ∨ 65536 ≤ i.toNat → exec (.lis r i) s = .next (s.raise .fit)) ∧
  (∀ s : State, s.Live → exec .nop s = .next (s.openWith 0x60000000#32))

/-- `LoadImmediate` likewise (the spec's R161); its leading six bits rest on the opcode 14 of `AddImmediate`, which is
not the source's (log entry 11). -/
def Obligations.LoadImmediateWord : Prop :=
  (∀ (r i : Operand) (s : State), exec (.li r i) s = exec (.addi r 0 i) s) ∧
  (∀ (r i : Operand) (s : State), s.Live → r.toNat < 32 → i.toNat < 65536 →
    exec (.li r i) s = .next (s.openWith (0x38000000#32 ||| BitVec.ofNat 32 r.toNat <<< 21 ||| BitVec.ofNat 32 i.toNat))) ∧
  (∀ (r i : Operand) (s : State), s.Live → 32 ≤ r.toNat ∨ 65536 ≤ i.toNat → exec (.li r i) s = .next (s.raise .fit))

/-! ### Outputs -/

/-- R25: the outputs by phase; after an encoder command that does not fault, its complete word. -/
def Obligations.OutputsByPhase : Prop :=
  (∀ s : State, (s.wordValid = true ↔ s.ph = .opened) ∧ (s.faultOut = true ↔ s.ph = .fault) ∧ s.faultCause = s.fc ∧
    (s.ph = .opened → s.wordOut = some s.w ∧ s.bytesOut = some (toBytes s.w)) ∧
    (s.ph ≠ .opened → s.wordOut = none ∧ s.bytesOut = none)) ∧
  ∀ (i : Instr) (s t : State), s.Live → exec i s = .next t → t.ph ≠ .fault → t.wordOut = some i.word

/-- R42: the four bytes are the fields of the word from its most significant end, and they determine it. -/
def Obligations.BytesBigEndian : Prop :=
  ∀ w : Word, toBytes w = [BitVec.ofNat 8 (field w 0 8), BitVec.ofNat 8 (field w 8 8), BitVec.ofNat 8 (field w 16 8),
      BitVec.ofNat 8 (field w 24 8)] ∧
    ∀ v : Word, toBytes v = toBytes w → v = w

/-! ### Encoding -/

/-- The spec's R68, [derived: from R62 to R65]: the ranges of the four layouts, which tile bits 0 to 31. The cut of
layout CTR is PRESUMED (log entry 21): R65 takes it from general knowledge, and only the whole word is normative. -/
def Obligations.LayoutsTile : Prop :=
  layoutBR.map (fun f => (f.offset, f.width)) = [(0, 6), (6, 24), (30, 1), (31, 1)] ∧
  layoutIMM.map (fun f => (f.offset, f.width)) = [(0, 6), (6, 5), (11, 5), (16, 16)] ∧
  layoutSPR.map (fun f => (f.offset, f.width)) = [(0, 6), (6, 5), (11, 10), (21, 10), (31, 1)] ∧
  layoutCTR.map (fun f => (f.offset, f.width)) = [(0, 6), (6, 5), (11, 5), (16, 5), (21, 10), (31, 1)] ∧
  ∀ l ∈ [layoutBR, layoutIMM, layoutSPR, layoutCTR], tiles 0 l = true ∧ (l.map FieldDesc.width).sum = 32

/-- Words cut by hand from the spec's encodings, one or more a family, decode to the commands they stand for. The
opcode 14 of `addi` and the decoder itself are the model's (log entries 9 and 11). -/
def Obligations.SampleWordsDecode : Prop :=
  decodeWord 0x4BFFFF1C#32 = .ok (.b (.disp (-228))) ∧ decodeWord 0x48000103#32 = .ok (.bla (.disp 0x100)) ∧
  decodeWord 0x38617FFF#32 = .ok (.addi 3 1 0x7FFF) ∧ decodeWord 0x60210010#32 = .ok (.ori 1 1 0x10) ∧
  decodeWord 0x3D400010#32 = .ok (.lis 10 0x10) ∧ decodeWord 0x7C9043A6#32 = .ok (.mtspr 4 272) ∧
  decodeWord 0x4E800420#32 = .ok .bctr ∧ decodeWord 0x4A000000#32 = .error .displacementNeverEmitted

/-- Decode and encode agree: for every encoder command that has a word, with every operand its fields admit, decoding
the bytes of the word, whatever follows them, gives the command in the decoder's spelling. The decoder and its choice
of spelling are the model's (DESIGN CHOICE, log entry 9): R5 b puts decoding out of the block's scope. -/
def Obligations.DecodeOfEncode : Prop :=
  ∀ (i : Instr) (w : Word) (rest : List Byte), encode i = some w → decode (toBytes w ++ rest) = .ok (i.canonical, rest)

/-- The other direction: a word that decodes is the word of the command it decodes to, which is in the decoder's
spelling. The decoder and its choice of spelling are the model's (DESIGN CHOICE, log entry 9): R5 b puts decoding out
of the block's scope. -/
def Obligations.EncodeOfDecode : Prop :=
  ∀ (w : Word) (i : Instr), decodeWord w = .ok i → encode i = some w ∧ i.canonical = i

/-- The spec's R75, [derived]: the words a row's command can emit are exactly those with `w & mask = match`, but for the
branch rows' words with `LI = 0x800000`. -/
def Obligations.RowWordsExactly : Prop :=
  ∀ (j : Instr) (w : Word), (∃ i, i.row = j.row ∧ encode i = some w) ↔
    (w &&& j.row.mask = j.row.pattern ∧ (j.opcode = .branch → field w 6 24 ≠ 0x800000))

/-- R21, R61: on every live state an encoder command whose operands are admitted leaves exactly the word its layout and
opcode give it, and opens it. The opcode of `addi` and `li` is log entry 11's, the cut of layout CTR log entry 21's. -/
def Obligations.ExecEmitsItsWord : Prop :=
  ∀ (i : Instr) (s : State), s.Live → i.wellFormed = true → exec i s = .next (s.openWith i.word)

/-- R21, R66: after every encoder command that does not fault the top six bits of `W` are its declared opcode. -/
def Obligations.OpcodeInPlace : Prop :=
  ∀ (i : Instr) (s t : State), s.Live → exec i s = .next t → t.ph = .opened → field t.w 0 6 = opcodeVal params i.opcode

/-- R123, R126, R164: a command and its spelling by the decoder do the same on every state. The spelling is the model's
(DESIGN CHOICE, log entry 9). -/
def Obligations.CanonicalSameEffect : Prop := ∀ (i : Instr) (s : State), exec i.canonical s = exec i s

/-! ### The machine -/

/-- R48, R185: a step performs the first event presented and leaves the rest to come; with none presented nothing
changes. The events to come are the model's own field (log entries 1 and 3). -/
def Obligations.StepTakesFirstRequest : Prop :=
  (∀ (s : State) (i : Instr) (rest : List Request), s.requests = .command (.instr i) :: rest →
    step s = exec i (s.withRequests rest)) ∧
  (∀ (s : State) (c : Command) (rest : List Request), s.requests = .command c :: rest →
    step s = execCommand c (s.withRequests rest)) ∧
  (∀ s : State, s.requests = [] → step s = .next s)

/-- An encoder command read from table bits and placed for the next step is what that step performs (log entries 2 and
9). -/
def Obligations.PlacedWordRuns : Prop :=
  ∀ (s : State) (nbits w : Nat) (i : Instr), decodeTableWord nbits w = some i →
    i.wellFormed = true ∧ step (s.withFetchWord nbits w) = exec i s

/-- The frame of every command: what it leaves unchanged. The events still to come (the model's own field,
log entry 1) always; `FC` unless it faults (log entry 23); `W` when it faults (log entry 6). -/
def Obligations.CommandFrame : Prop :=
  ∀ (c : Command) (s t : State), execCommand c s = .next t →
    t.requests = s.requests ∧ (t.ph ≠ .fault → t.fc = s.fc) ∧ (t.ph = .fault → t.w = s.w) ∧
    (c.deposit ≠ none → t.ph ≠ .fault → t.ph = s.ph)

/-- A step is refused exactly when a reset or a second command arrives during a command, and answers a next state
otherwise. The refusal is the model's choice (log entry 10), as R48 asks for a second command and U10 for both; that no
step stops with a fault is read from R178, R179 and R200 (log entry 5). -/
def Obligations.StepStopsOnlyOnOverlap : Prop :=
  (∀ s : State, (∃ t, step s = .next t) ∨
    (step s = .refused .overlappingUse ∧
      ∃ c rest, s.requests = .resetDuring c :: rest ∨ ∃ d, s.requests = .commandDuring c d :: rest)) ∧
  (∀ (s : State) (c : Command) (rest : List Request), s.requests = .resetDuring c :: rest →
    step s = .refused .overlappingUse) ∧
  (∀ (s : State) (c d : Command) (rest : List Request), s.requests = .commandDuring c d :: rest →
    step s = .refused .overlappingUse)

/-- R33: a step of one instance reads that instance alone, leaves every other as it was, and commutes with steps of the
others. -/
def Obligations.InstancesIndependent : Prop :=
  (∀ (k : Nat) (ss : List State) (s t : State), ss[k]? = some s → step s = .next t →
    stepInstance k ss = .next (ss.set k t)) ∧
  (∀ (k j : Nat) (ss ts : List State), stepInstance k ss = .next ts → j ≠ k → ts[j]? = ss[j]?) ∧
  (∀ (k m : Nat) (ss ts us : List State), k ≠ m → stepInstance k ss = .next ts → stepInstance m ts = .next us →
    ∃ vs, stepInstance m ss = .next vs ∧ stepInstance k vs = .next us)

/-! ### The named choices -/

/-- D11, U4 (log entry 14): for immediates up to 0x7FFF both values of `IMM16_WRITER` give the same outcome. -/
def Obligations.ImmediateWritersAgree : Prop :=
  ∀ (op : Opcode) (a b i : Operand) (s : State), i.toNat ≤ 0x7FFF →
    immForm { params with imm16Writer := .signed } op a b i s = immForm params op a b i s

/-- D12, U3 (log entry 15): where the exact difference of the addresses read as signed fits 32 bits, both values of
`FROM_TO_OVERFLOW` give the same outcome. -/
def Obligations.FromToOverflowAgree : Prop :=
  ∀ (aa lk : Bool) (f t : Operand) (s : State), -(2 ^ 31) ≤ t.toInt - f.toInt → t.toInt - f.toInt < 2 ^ 31 →
    branch { params with fromToOverflow := .fault } aa lk (.fromTo f t) s = branch params aa lk (.fromTo f t) s
end

