-- ==== Sys2Proof/Laws/Bits.lean ====
section
/-! SUPPORT. What a deposit does to a word, bit by bit and as a number; fields and bytes read back. -/

namespace Sys2Proof.Machine

/-- A field is as wide as it says. -/
theorem field_lt (w : Word) (offset width : Nat) : field w offset width < 2 ^ width :=
  Nat.mod_lt _ (Nat.two_pow_pos _)

/-- The deposit of 0 changes nothing (R102 b). -/
@[simp] theorem dep_zero (w : Word) (width offset : Nat) : dep w 0 width offset = w := by
  simp [dep]

/-- A deposit bit by bit: the word's own bit, or the bit of the value that lands there (R13). -/
theorem dep_getLsbD (w : Word) (v width offset j : Nat) :
    (dep w v width offset).getLsbD j =
      (w.getLsbD j || (decide (j < 32) && (decide (32 - offset - width ≤ j) &&
        v.testBit (j - (32 - offset - width))))) := by
  simp [dep, BitVec.getLsbD_or, BitVec.getLsbD_ofNat, Nat.testBit_shiftLeft]

/-- A field bit by bit. -/
theorem field_testBit (w : Word) (offset width j : Nat) :
    (field w offset width).testBit j = (decide (j < width) && w.getLsbD (32 - offset - width + j)) := by
  simp [field, zext, Nat.testBit_mod_two_pow, Nat.testBit_shiftRight, BitVec.getLsbD]

/-- What a field holds after a deposit into it: the OR of old and new (R103 c, R108). -/
theorem field_dep_self (w : Word) (v width offset : Nat) (hs : offset + width ≤ 32) (hv : v < 2 ^ width) :
    field (dep w v width offset) offset width = v ||| field w offset width := by
  apply Nat.eq_of_testBit_eq
  intro j
  rw [field_testBit, dep_getLsbD, Nat.testBit_or, field_testBit]
  by_cases hj : j < width
  · have h1 : 32 - offset - width + j < 32 := by omega
    simp [hj, h1, Bool.or_comm]
  · have : v.testBit j = false := Nat.testBit_lt_two_pow (Nat.lt_of_lt_of_le hv (Nat.pow_le_pow_right (by omega) (by omega)))
    simp [hj, this]

/-- A deposit leaves every field it does not overlap as it was (R102 f). -/
theorem field_dep_of_disjoint (w : Word) (v width offset o' w' : Nat) (hs : offset + width ≤ 32) (hv : v < 2 ^ width)
    (hs' : o' + w' ≤ 32) (hd : offset + width ≤ o' ∨ o' + w' ≤ offset) :
    field (dep w v width offset) o' w' = field w o' w' := by
  apply Nat.eq_of_testBit_eq
  intro j
  rw [field_testBit, dep_getLsbD, field_testBit]
  by_cases hj : j < w'
  · by_cases hle : 32 - offset - width ≤ 32 - o' - w' + j
    · have : v.testBit (32 - o' - w' + j - (32 - offset - width)) = false :=
        Nat.testBit_lt_two_pow (Nat.lt_of_lt_of_le hv (Nat.pow_le_pow_right (by omega) (by omega)))
      simp [this]
    · simp [hle]
  · simp [hj]

/-- A deposit into clear bits adds the value at its place. -/
theorem dep_toNat (w : Word) (v width offset : Nat) (hs : offset + width ≤ 32) (hv : v < 2 ^ width)
    (hz : field w offset width = 0) :
    (dep w v width offset).toNat = w.toNat + v * 2 ^ (32 - offset - width) := by
  have hlt : v * 2 ^ (32 - offset - width) < 2 ^ 32 := by
    calc v * 2 ^ (32 - offset - width) < 2 ^ width * 2 ^ (32 - offset - width) :=
          Nat.mul_lt_mul_of_pos_right hv (Nat.two_pow_pos _)
      _ = 2 ^ (32 - offset) := by rw [← Nat.pow_add]; congr 1; omega
      _ ≤ 2 ^ 32 := Nat.pow_le_pow_right (by omega) (by omega)
  have hand : w &&& BitVec.ofNat 32 (v <<< (32 - offset - width)) = 0#32 := by
    apply BitVec.eq_of_getLsbD_eq
    intro j hj
    rw [BitVec.getLsbD_and, BitVec.getLsbD_ofNat, Nat.testBit_shiftLeft, BitVec.getLsbD_zero]
    by_cases hle : 32 - offset - width ≤ j
    · by_cases hw : j - (32 - offset - width) < width
      · have := field_testBit w offset width (j - (32 - offset - width))
        rw [hz, Nat.zero_testBit] at this
        simp only [hw, decide_true, Bool.true_and] at this
        rw [show 32 - offset - width + (j - (32 - offset - width)) = j by omega] at this
        simp [← this]
      · have : v.testBit (j - (32 - offset - width)) = false :=
          Nat.testBit_lt_two_pow (Nat.lt_of_lt_of_le hv (Nat.pow_le_pow_right (by omega) (by omega)))
        simp [this]
    · simp [hle]
  have hsum : (w + BitVec.ofNat 32 (v <<< (32 - offset - width))).toNat
      = w.toNat + v * 2 ^ (32 - offset - width) := by
    have h0 := BitVec.add_eq_or_of_and_eq_zero _ _ hand
    have hor : (w ||| BitVec.ofNat 32 (v <<< (32 - offset - width))).toNat < 2 ^ 32 := BitVec.isLt _
    have hcarry : w.toNat + v * 2 ^ (32 - offset - width) < 2 ^ 32 := by
      have := BitVec.toNat_add_of_and_eq_zero hand
      rw [h0] at this
      rw [BitVec.toNat_ofNat, Nat.shiftLeft_eq, Nat.mod_eq_of_lt hlt] at this
      omega
    rw [BitVec.toNat_add, BitVec.toNat_ofNat, Nat.shiftLeft_eq, Nat.mod_eq_of_lt hlt, Nat.mod_eq_of_lt hcarry]
  rw [← hsum, dep, BitVec.add_eq_or_of_and_eq_zero _ _ hand]

/-- The word put together from its bytes has them as its bytes (R42). -/
theorem ofBytes_toBytes (w : Word) :
    ofBytes (w.extractLsb' 24 8) (w.extractLsb' 16 8) (w.extractLsb' 8 8) (w.extractLsb' 0 8) = w := by
  apply BitVec.eq_of_getLsbD_eq
  intro j hj
  simp only [ofBytes, BitVec.getLsbD_append, BitVec.getLsbD_extractLsb']
  by_cases h1 : j < 8
  · simp [h1]
  · by_cases h2 : j - 8 < 8
    · simp [h1, h2, show 8 + (j - 8) = j by omega]
    · by_cases h3 : j - 8 - 8 < 8
      · simp [h1, h2, h3, show 16 + (j - 8 - 8) = j by omega]
      · simp [h1, h2, h3, show 24 + (j - 8 - 8 - 8) = j by omega, show j - 8 - 8 - 8 < 8 by omega]

/-- The half swap of an identifier as a number (R145). -/
theorem swap10_eq (s : Nat) (h : s < 1024) : swap10 s = s % 32 * 32 + s / 32 := by
  have h1 : s &&& 0x1F = s % 32 := Nat.and_two_pow_sub_one_eq_mod s 5
  have h2 : s / 32 < 2 ^ 5 := by omega
  rw [swap10, h1, Nat.shiftRight_eq_div_pow, ← Nat.shiftLeft_add_eq_or_of_lt h2, Nat.shiftLeft_eq]

theorem swap10_lt (s : Nat) (h : s < 1024) : swap10 s < 1024 := by
  rw [swap10_eq s h]; omega

end Sys2Proof.Machine
end

