-- ==== Sys2Proof/Laws/Params.lean ====
section
/-! SUPPORT. The value of each parameter and opcode, so that no proof unfolds the record. -/

namespace Sys2Proof.Machine

@[simp] theorem params_wordBits : params.wordBits = 32 := rfl
@[simp] theorem params_opcodeBits : params.opcodeBits = 6 := rfl
@[simp] theorem params_regFieldBits : params.regFieldBits = 5 := rfl
@[simp] theorem params_immBits : params.immBits = 16 := rfl
@[simp] theorem params_liBits : params.liBits = 24 := rfl
@[simp] theorem params_aaOffset : params.aaOffset = 30 := rfl
@[simp] theorem params_lkOffset : params.lkOffset = 31 := rfl
@[simp] theorem params_brMaxWords : params.brMaxWords = 8388607 := rfl
@[simp] theorem params_sprBits : params.sprBits = 10 := rfl
@[simp] theorem params_bctrWord : params.bctrWord = 0x4E800420#32 := rfl
@[simp] theorem params_opcBranch : params.opcBranch = 18 := rfl
@[simp] theorem params_opcAddi : params.opcAddi = 14 := rfl
@[simp] theorem params_opcAddis : params.opcAddis = 15 := rfl
@[simp] theorem params_opcOri : params.opcOri = 24 := rfl
@[simp] theorem params_opcX31 : params.opcX31 = 31 := rfl
@[simp] theorem params_opcXl19 : params.opcXl19 = 19 := rfl
@[simp] theorem params_xoMtspr : params.xoMtspr = 467 := rfl
@[simp] theorem params_rsvMtspr : params.rsvMtspr = 0 := rfl
@[simp] theorem params_imm16Writer : params.imm16Writer = .unsigned := rfl
@[simp] theorem params_wsfNegCheck : params.wsfNegCheck = .fault := rfl
@[simp] theorem params_fromToOverflow : params.fromToOverflow = .wrap := rfl
@[simp] theorem params_sprIdCheck : params.sprIdCheck = .beforeSwap := rfl

@[simp] theorem opcodeVal_branch : opcodeVal params .branch = 18 := rfl
@[simp] theorem opcodeVal_addImmediate : opcodeVal params .addImmediate = 14 := rfl
@[simp] theorem opcodeVal_addImmediateShifted : opcodeVal params .addImmediateShifted = 15 := rfl
@[simp] theorem opcodeVal_orImmediate : opcodeVal params .orImmediate = 24 := rfl
@[simp] theorem opcodeVal_moveToSpecialRegister : opcodeVal params .moveToSpecialRegister = 31 := rfl
@[simp] theorem opcodeVal_branchToRegisterOnCondition : opcodeVal params .branchToRegisterOnCondition = 19 := rfl

/-- Not a simp lemma: the number is part of the type Operand, where simp must not rewrite it. -/
theorem params_operandBits : params.operandBits = 32 := rfl

/-- An operand is a 32-bit pattern (R24). -/
theorem operand_toNat_lt (v : Operand) : v.toNat < 4294967296 := v.isLt

/-- The two's-complement reading of an operand in terms of the unsigned one (R10). -/
theorem operand_toInt_eq (v : Operand) :
    v.toInt = if 2 * v.toNat < 4294967296 then (v.toNat : Int) else (v.toNat : Int) - 4294967296 :=
  BitVec.toInt_eq_toNat_cond v

theorem operand_toInt_range (v : Operand) : -2147483648 ≤ v.toInt ∧ v.toInt ≤ 2147483647 := by
  have h := operand_toNat_lt v
  rw [operand_toInt_eq]
  split <;> omega

/-- A number of that range is read back from its pattern. -/
theorem operand_toInt_ofInt {d : Int} (hlo : -2147483648 ≤ d) (hhi : d ≤ 2147483647) :
    (BitVec.ofInt params.operandBits d).toInt = d := by
  rw [BitVec.toInt_ofInt]
  change d.bmod 4294967296 = d
  exact Int.bmod_eq_of_le (by omega) (by omega)

/-- Every opcode has a 6-bit value (R101: `FIT` cannot occur in `NEW`). -/
theorem opcodeVal_lt (op : Opcode) : opcodeVal params op < 64 := by
  cases op <;> decide

end Sys2Proof.Machine
end

