-- ==== Sys2Proof/Laws/State.lean ====
section
/-! SUPPORT. The fields of each state update, and the status outputs by phase. -/

namespace Sys2Proof.Machine

@[simp] theorem State.setW_w (s : State) (v : Word) : (s.setW v).w = v := rfl
@[simp] theorem State.setW_ph (s : State) (v : Word) : (s.setW v).ph = s.ph := rfl
@[simp] theorem State.setW_fc (s : State) (v : Word) : (s.setW v).fc = s.fc := rfl
@[simp] theorem State.setW_requests (s : State) (v : Word) : (s.setW v).requests = s.requests := rfl

@[simp] theorem State.openWith_w (s : State) (v : Word) : (s.openWith v).w = v := rfl
@[simp] theorem State.openWith_ph (s : State) (v : Word) : (s.openWith v).ph = .opened := rfl
@[simp] theorem State.openWith_fc (s : State) (v : Word) : (s.openWith v).fc = s.fc := rfl
@[simp] theorem State.openWith_requests (s : State) (v : Word) : (s.openWith v).requests = s.requests := rfl

@[simp] theorem State.raise_w (s : State) (c : Cause) : (s.raise c).w = s.w := rfl
@[simp] theorem State.raise_ph (s : State) (c : Cause) : (s.raise c).ph = .fault := rfl
@[simp] theorem State.raise_fc (s : State) (c : Cause) : (s.raise c).fc = some c := rfl
@[simp] theorem State.raise_requests (s : State) (c : Cause) : (s.raise c).requests = s.requests := rfl

@[simp] theorem State.assertReset_w (s : State) : s.assertReset.w = 0 := rfl
@[simp] theorem State.assertReset_ph (s : State) : s.assertReset.ph = .idle := rfl
@[simp] theorem State.assertReset_fc (s : State) : s.assertReset.fc = none := rfl
@[simp] theorem State.assertReset_requests (s : State) : s.assertReset.requests = s.requests := rfl

@[simp] theorem State.withRequests_w (s : State) (rs : List Request) : (s.withRequests rs).w = s.w := rfl
@[simp] theorem State.withRequests_ph (s : State) (rs : List Request) : (s.withRequests rs).ph = s.ph := rfl
@[simp] theorem State.withRequests_fc (s : State) (rs : List Request) : (s.withRequests rs).fc = s.fc := rfl
@[simp] theorem State.withRequests_requests (s : State) (rs : List Request) : (s.withRequests rs).requests = rs := rfl

/-- A later write of `W` replaces an earlier one. -/
@[simp] theorem State.setW_setW (s : State) (v x : Word) : (s.setW v).setW x = s.setW x := rfl
@[simp] theorem State.openWith_setW (s : State) (v x : Word) : (s.openWith v).setW x = s.openWith x := rfl
@[simp] theorem State.setW_openWith (s : State) (v x : Word) : (s.setW v).openWith x = s.openWith x := rfl
@[simp] theorem State.withRequests_withRequests (s : State) (p q : List Request) :
    (s.withRequests p).withRequests q = s.withRequests q := rfl

theorem State.wordValid_iff (s : State) : s.wordValid = true ↔ s.ph = .opened := by
  simp [State.wordValid]

theorem State.faultOut_iff (s : State) : s.faultOut = true ↔ s.ph = .fault := by
  simp [State.faultOut]

theorem State.wordOut_of_opened (s : State) (h : s.ph = .opened) : s.wordOut = some s.w := by
  simp [State.wordOut, (State.wordValid_iff s).2 h]

theorem State.wordOut_of_not_opened (s : State) (h : s.ph ≠ .opened) : s.wordOut = none := by
  simp [State.wordOut, State.wordValid, h]

end Sys2Proof.Machine
end

