-- ==== Sys2Proof/Laws/Ops.lean ====
section
/-! SUPPORT. One lemma for each shared operation: everything it can do. -/

namespace Sys2Proof.Machine

/-! ### require -/

@[simp] theorem require_of {p : Prop} [Decidable p] (c : Cause) (h : p) : require p c = .ok () := if_pos h

@[simp] theorem require_of_not {p : Prop} [Decidable p] (c : Cause) (h : ¬ p) : require p c = .error c := if_neg h

/-! ### The primitive steps -/

/-- A fresh word is the opcode's six bits and zeros (R101). -/
theorem newStep_eq (op : Opcode) (s : State) :
    newStep params op s = s.openWith (BitVec.ofNat 32 (opcodeVal params op * 67108864)) := by
  simp [newStep, dep, Nat.shiftLeft_eq]

theorem newStep_ph (c : Config) (op : Opcode) (s : State) : (newStep c op s).ph = .opened := rfl

/-- An unsigned deposit that every check admits (R102). -/
theorem wufStep_ok {value width offset : Nat} {s : State} (hp : s.ph = .opened) (hs : offset + width ≤ 32)
    (hv : value < 2 ^ width) : wufStep params value width offset s = .ok (s.setW (dep s.w value width offset)) := by
  simp [wufStep, hp, hs, hv]

/-- The same inside a command that has opened a word. -/
theorem wufStep_openWith_ok {value width offset : Nat} (s : State) (w : Word) (hs : offset + width ≤ 32)
    (hv : value < 2 ^ width) :
    wufStep params value width offset (s.openWith w) = .ok (s.openWith (dep w value width offset)) := by
  rw [wufStep_ok rfl hs hv]
  rfl

/-- A value too wide for its field (R172). -/
theorem wufStep_openWith_fit {value width offset : Nat} (s : State) (w : Word) (hs : offset + width ≤ 32)
    (hv : ¬ value < 2 ^ width) : wufStep params value width offset (s.openWith w) = .error .fit := by
  simp [wufStep, hs, hv]

/-- Everything an unsigned deposit can do (R102): it keeps the phase and ORs into `W`, or it raises the first check that
fails. -/
theorem wufStep_cases (value width offset : Nat) (s : State) :
    (s.ph ≠ .opened ∧ wufStep params value width offset s = .error .order) ∨
    (s.ph = .opened ∧ ¬ offset + width ≤ 32 ∧ wufStep params value width offset s = .error .span) ∨
    (s.ph = .opened ∧ offset + width ≤ 32 ∧ ¬ value < 2 ^ width ∧
      wufStep params value width offset s = .error .fit) ∨
    (s.ph = .opened ∧ offset + width ≤ 32 ∧ value < 2 ^ width ∧
      wufStep params value width offset s = .ok (s.setW (dep s.w value width offset))) := by
  by_cases hp : s.ph = .opened <;> by_cases hs : offset + width ≤ 32 <;> by_cases hv : value < 2 ^ width <;>
    simp [wufStep, hp, hs, hv]

/-- The bits `WSF` deposits, sign bit and magnitude together, are the two's-complement pattern of its value (R105). -/
theorem pattern_eq (v : Int) (k : Nat) (hlo : -(2 ^ k) ≤ v) (hhi : v ≤ 2 ^ k - 1) (hk : k ≤ 31) :
    (v % 2 ^ (k+1)).toNat = signBit v * 2 ^ k + magnitude v (k+1) ∧ magnitude v (k+1) < 2 ^ k := by
  have hp : (0:Int) < 2 ^ k := by positivity
  have e : (2:Int) ^ (k+1) = 2 * 2 ^ k := by ring
  unfold signBit magnitude
  rw [e, Nat.add_sub_cancel]
  by_cases hn : v < 0
  · rw [if_pos hn, if_pos hn]
    have : v % (2 * 2 ^ k) = v + 2 * 2 ^ k := by
      rw [← Int.add_emod_right, Int.emod_eq_of_lt] <;> omega
    have h2 : (u32 v).toNat % 2 ^ k = (v + 2^k).toNat := by
      rw [u32, BitVec.toNat_ofInt]
      have : ((v % ((2:Nat)^32 : Nat)).toNat : Int) = v % 2^32 := by
        rw [Int.toNat_of_nonneg (Int.emod_nonneg _ (by norm_num))]; norm_num
      have h3 : (((v % ((2:Nat)^32 : Nat)).toNat % 2 ^ k : Nat) : Int) = v % 2^32 % 2^k := by
        rw [← this]; push_cast; rfl
      have h4 : v % 2^32 % 2^k = v % 2^k := Int.emod_emod_of_dvd _ (pow_dvd_pow 2 (by omega))
      have h5 : v % 2^k = v + 2^k := by
        rw [← Int.add_emod_right, Int.emod_eq_of_lt] <;> omega
      rw [h4, h5] at h3
      omega
    rw [Nat.and_two_pow_sub_one_eq_mod, h2, this]
    have hc : ((2 ^ k : Nat) : Int) = 2 ^ k := by push_cast; rfl
    constructor <;> omega
  · rw [if_neg hn, if_neg hn, Int.emod_eq_of_lt (by omega) (by omega)]
    have hc : ((2 ^ k : Nat) : Int) = 2 ^ k := by push_cast; rfl
    constructor <;> omega

/-- A signed deposit is the deposit of the two's-complement pattern (R105). -/
theorem depSigned_eq (w : Word) (v : Int) (k o : Nat) (hlo : -(2 ^ k) ≤ v) (hhi : v ≤ 2 ^ k - 1) (hk : o + (k+1) ≤ 32) :
    depSigned w v (k+1) o = dep w (v % 2 ^ (k+1)).toNat (k+1) o := by
  obtain ⟨h1, h2⟩ := pattern_eq v k hlo hhi (by omega)
  have hs : signBit v * 2 ^ k + magnitude v (k+1) = (signBit v <<< k) ||| magnitude v (k+1) := by
    rw [← Nat.shiftLeft_add_eq_or_of_lt h2, Nat.shiftLeft_eq]
  rw [h1, hs, depSigned]
  apply BitVec.eq_of_getLsbD_eq
  intro j hj
  simp only [dep_getLsbD, Nat.testBit_or, Nat.testBit_shiftLeft, hj, decide_true, Bool.true_and, Nat.add_sub_cancel]
  rw [show 32 - (o+1) - k = 32 - o - (k+1) by omega, show 32 - o - 1 = 32 - o - (k+1) + k by omega]
  generalize 32 - o - (k+1) = q
  by_cases h3 : q + k ≤ j
  · have h4 : q ≤ j := by omega
    have h5 : k ≤ j - q := by omega
    rw [show j - q - k = j - (q + k) by omega]
    simp [h3, h4, h5, Bool.or_assoc]
  · have h5 : ¬ k ≤ j - q ∨ ¬ q ≤ j := by omega
    rcases h5 with h5 | h5 <;> simp [h3, h5]

/-- A signed deposit that every check admits (R104). -/
theorem wsfStep_ok {v : Int} {width offset : Nat} {s : State} (hp : s.ph = .opened) (hw : 1 ≤ width)
    (hs : offset + width ≤ 32) (hlo : -(2 ^ (width - 1)) ≤ v) (hhi : v ≤ 2 ^ (width - 1) - 1) :
    wsfStep params v width offset s = .ok (s.setW (depSigned s.w v width offset)) := by
  have hw' : width ≠ 0 := by omega
  simp [wsfStep, hp, hs, hw', hlo, hhi]

/-- Everything a signed deposit can do (R104). -/
theorem wsfStep_cases (v : Int) (width offset : Nat) (s : State) :
    (s.ph ≠ .opened ∧ wsfStep params v width offset s = .error .order) ∨
    (s.ph = .opened ∧ width = 0 ∧ wsfStep params v width offset s = .error .fit) ∨
    (s.ph = .opened ∧ 1 ≤ width ∧ ¬ offset + width ≤ 32 ∧ wsfStep params v width offset s = .error .span) ∨
    (s.ph = .opened ∧ 1 ≤ width ∧ offset + width ≤ 32 ∧ (v < -(2 ^ (width - 1)) ∨ 2 ^ (width - 1) ≤ v) ∧
      wsfStep params v width offset s = .error .fit) ∨
    (s.ph = .opened ∧ 1 ≤ width ∧ offset + width ≤ 32 ∧ -(2 ^ (width - 1)) ≤ v ∧ v < 2 ^ (width - 1) ∧
      wsfStep params v width offset s = .ok (s.setW (depSigned s.w v width offset))) := by
  by_cases hp : s.ph = .opened
  · by_cases hw : width = 0
    · simp [wsfStep, hp, hw]
    · have hw1 : 1 ≤ width := by omega
      by_cases hs : offset + width ≤ 32
      · by_cases hhi : v < 2 ^ (width - 1)
        · by_cases hlo : -(2 ^ (width - 1)) ≤ v
          · have hle : v ≤ 2 ^ (width - 1) - 1 := by omega
            simp [wsfStep, hp, hs, hw, hw1, hhi, hlo, hle]
          · have hle : v ≤ 2 ^ (width - 1) - 1 := by omega
            have hlt : v < -(2 ^ (width - 1)) := by omega
            simp [wsfStep, hp, hs, hw, hw1, hhi, hlt, hle]
        · have hge : (2 : Int) ^ (width - 1) ≤ v := by omega
          have hgt : ¬ v ≤ 2 ^ (width - 1) - 1 := by omega
          simp [wsfStep, hp, hs, hw, hw1, hge, hgt]
      · simp [wsfStep, hp, hs, hw, hw1]
  · simp [wsfStep, hp]

/-! ### Performing a command -/

/-- Everything performing a command can do: nothing in `FAULT`; the whole effect; or the fault, taken from the state
before the command (R178, R179). -/
theorem perform_cases (effect : State → Except Cause State) (s : State) :
    (s.ph = .fault ∧ perform effect s = s) ∨
    (s.ph ≠ .fault ∧ ∃ t, effect s = .ok t ∧ perform effect s = t) ∨
    (s.ph ≠ .fault ∧ ∃ c, effect s = .error c ∧ perform effect s = s.raise c) := by
  by_cases h : s.ph = .fault
  · exact .inl ⟨h, if_pos h⟩
  · cases he : effect s with
    | ok t => exact .inr (.inl ⟨h, t, rfl, by simp [perform, h, he]⟩)
    | error c => exact .inr (.inr ⟨h, c, rfl, by simp [perform, h, he]⟩)

theorem perform_fault {effect : State → Except Cause State} {s : State} (h : s.ph = .fault) : perform effect s = s :=
  if_pos h

theorem perform_ok {effect : State → Except Cause State} {s t : State} (h : s.ph ≠ .fault) (he : effect s = .ok t) :
    perform effect s = t := by
  simp [perform, h, he]

theorem perform_error {effect : State → Except Cause State} {s : State} {c : Cause} (h : s.ph ≠ .fault)
    (he : effect s = .error c) : perform effect s = s.raise c := by
  simp [perform, h, he]

/-- Two effects that answer alike on a live state are performed alike. -/
theorem perform_congr {e₁ e₂ : State → Except Cause State} {s : State} (h : e₁ s = e₂ s) : perform e₁ s = perform e₂ s := by
  simp [perform, h]

/-! ### The operand forms -/

@[simp] theorem readUnsigned_eq (v : Operand) : readUnsigned v = v.toNat := rfl

@[simp] theorem readSigned_eq (v : Operand) : readSigned v = v.toInt := rfl

/-- The wrapping difference is the machine's own subtraction (R126). -/
theorem fromToOffset_eq (f t : Operand) : fromToOffset params f t = .ok (t - f).toInt := by
  have h : s32 (u32 (readSigned t - readSigned f)) = (t - f).toInt := by
    rw [s32, u32, readSigned, readSigned, BitVec.toInt_ofInt, BitVec.toInt_sub]
    rfl
  simp only [fromToOffset, params_fromToOverflow, h]

end Sys2Proof.Machine
end

