-- ==== Sys2Proof/Laws/Encoders.lean ====
section
/-! SUPPORT. One lemma for each encoder's steps: the word it builds, as a number, or the cause it raises. -/

namespace Sys2Proof.Machine

/-- The number of the word a branch's base form builds (R123). -/
theorem branchBase_eq (aa lk : Bool) (s : State) :
    branchBase params aa lk s = .ok (s.openWith (BitVec.ofNat 32 (1207959552 + flagBit aa * 2 + flagBit lk))) := by
  cases aa <;> cases lk <;>
    simp [branchBase, newStep_eq, wufStep, flagBit, bind, Except.bind, dep]

/-- The step an immediate takes under the spec's writer (R70). -/
theorem immStep_params (imm : Operand) (s : State) : immStep params imm s = wufStep params imm.toNat 16 16 s := by
  simp [immStep, readUnsigned]

/-- Three fields deposited below an opcode, as a number. -/
theorem dep_imm_fields (op a b i : Nat) (_ : op < 64) (ha : a < 32) (hb : b < 32) (hi : i < 65536) :
    dep (dep (dep (BitVec.ofNat 32 (op * 67108864)) a 5 6) b 5 11) i 16 16 =
      BitVec.ofNat 32 (op * 67108864 + a * 2097152 + b * 65536 + i) := by
  have h1 := dep_toNat (BitVec.ofNat 32 (op * 67108864)) a 5 6 (by omega) ha
    (by simp only [field, zext, BitVec.toNat_ofNat]; omega)
  have h2 := dep_toNat (dep (BitVec.ofNat 32 (op * 67108864)) a 5 6) b 5 11 (by omega) hb
    (by simp only [field, zext, h1, BitVec.toNat_ofNat]; omega)
  have h3 := dep_toNat (dep (dep (BitVec.ofNat 32 (op * 67108864)) a 5 6) b 5 11) i 16 16 (by omega) hi
    (by simp only [field, zext, h2, h1, BitVec.toNat_ofNat]; omega)
  apply BitVec.eq_of_toNat_eq
  rw [h3, h2, h1]
  simp only [BitVec.toNat_ofNat]
  omega

/-- Everything an immediate encoder can do (R144): four fields side by side, or `FIT`. -/
theorem immForm_eq (op : Opcode) (a b i : Operand) (s : State) :
    immForm params op a b i s =
      if a.toNat < 32 ∧ b.toNat < 32 ∧ i.toNat < 65536 then
        .ok (s.openWith (BitVec.ofNat 32
          (opcodeVal params op * 67108864 + a.toNat * 2097152 + b.toNat * 65536 + i.toNat)))
      else .error .fit := by
  simp only [immForm, newStep_eq, regStep, readUnsigned, immStep_params, params_regFieldBits, bind, Except.bind]
  by_cases ha : a.toNat < 2 ^ 5
  · rw [wufStep_openWith_ok s _ (by omega) ha]
    by_cases hb : b.toNat < 2 ^ 5
    · simp only []
      rw [wufStep_openWith_ok s _ (by omega) hb]
      by_cases hi : i.toNat < 2 ^ 16
      · simp only []
        rw [wufStep_openWith_ok s _ (by omega) hi, dep_imm_fields _ _ _ _ (opcodeVal_lt op) ha hb hi, if_pos ⟨ha, hb, hi⟩]
      · simp only []
        rw [wufStep_openWith_fit s _ (by omega) hi, if_neg (fun h => hi h.2.2)]
    · simp only []
      rw [wufStep_openWith_fit s _ (by omega) hb, if_neg (fun h => hb h.2.1)]
  · rw [wufStep_openWith_fit s _ (by omega) ha, if_neg (fun h => ha h.1)]

/-- The constant word, as the five deposits build it (R148). -/
theorem branchCtr_eq (s : State) : branchCtr params s = .ok (s.openWith 0x4E800420#32) := by
  have hw : dep (dep (dep (dep (dep (BitVec.ofNat 32 (19 * 67108864)) 20 5 6) 0 5 11) 0 5 16) 528 10 21) 0 1 31 =
      0x4E800420#32 := by decide
  simp only [branchCtr, newStep_eq, opcodeVal_branchToRegisterOnCondition, bind, Except.bind]
  rw [wufStep_openWith_ok s _ (by omega) (by omega)]
  simp only []
  rw [wufStep_openWith_ok s _ (by omega) (by omega)]
  simp only []
  rw [wufStep_openWith_ok s _ (by omega) (by omega)]
  simp only []
  rw [wufStep_openWith_ok s _ (by omega) (by omega)]
  simp only []
  rw [wufStep_openWith_ok s _ (by omega) (by omega), hw]

/-- The four fields of a move to a special register below its opcode, as a number. -/
theorem dep_spr_fields (r p : Nat) (hr : r < 32) (hp : p < 1024) :
    dep (dep (dep (dep (BitVec.ofNat 32 (31 * 67108864)) r 5 6) p 10 11) 467 10 21) 0 1 31 =
      BitVec.ofNat 32 (2080375718 + r * 2097152 + p * 2048) := by
  have h1 := dep_toNat (BitVec.ofNat 32 (31 * 67108864)) r 5 6 (by omega) hr
    (by simp only [field, zext, BitVec.toNat_ofNat]; omega)
  have h2 := dep_toNat (dep (BitVec.ofNat 32 (31 * 67108864)) r 5 6) p 10 11 (by omega) hp
    (by simp only [field, zext, h1, BitVec.toNat_ofNat]; omega)
  have h3 := dep_toNat (dep (dep (BitVec.ofNat 32 (31 * 67108864)) r 5 6) p 10 11) 467 10 21 (by omega) (by omega)
    (by simp only [field, zext, h2, h1, BitVec.toNat_ofNat]; omega)
  rw [dep_zero]
  apply BitVec.eq_of_toNat_eq
  rw [h3, h2, h1]
  simp only [BitVec.toNat_ofNat]
  omega

/-- Everything the move to a special register can do (R146). -/
theorem moveToSpr_eq (r id : Operand) (s : State) :
    moveToSpr params r id s =
      if r.toNat < 32 ∧ id.toNat < 1024 then
        .ok (s.openWith (BitVec.ofNat 32 (2080375718 + r.toNat * 2097152 + swap10 id.toNat * 2048)))
      else .error .fit := by
  simp only [moveToSpr, newStep_eq, regStep, sprStep, readUnsigned, params_regFieldBits, params_sprBits,
    params_xoMtspr, params_rsvMtspr, opcodeVal_moveToSpecialRegister, bind, Except.bind]
  by_cases hr : r.toNat < 2 ^ 5
  · rw [wufStep_openWith_ok s _ (by omega) hr]
    simp only []
    by_cases hi : id.toNat < 2 ^ 10
    · have hi' : sprIdAdmitted params id := fun _ => hi
      rw [require_of _ hi']
      simp only []
      rw [wufStep_openWith_ok s _ (by omega) (swap10_lt _ hi)]
      simp only []
      rw [wufStep_openWith_ok s _ (by omega) (by omega)]
      simp only []
      rw [wufStep_openWith_ok s _ (by omega) (by omega), dep_spr_fields _ _ hr (swap10_lt _ hi), if_pos ⟨hr, hi⟩]
    · have hi' : ¬ sprIdAdmitted params id := fun h => hi (h rfl)
      rw [require_of_not _ hi', if_neg (fun h => hi h.2)]
  · rw [wufStep_openWith_fit s _ (by omega) hr, if_neg (fun h => hr h.1)]

/-- The bits a signed deposit of a word offset leaves in a clear 24-bit field, as a number (R105). -/
theorem depSigned_li_toNat (w : Word) (n : Int) (hlo : -8388608 ≤ n) (hhi : n ≤ 8388607) (hz : field w 6 24 = 0) :
    (depSigned w n 24 6).toNat = w.toNat + (n % 16777216).toNat * 4 := by
  rw [depSigned_eq w n 23 6 (by norm_num; omega) (by norm_num; omega) (by omega)]
  exact dep_toNat w _ 24 6 (by omega) (by norm_num; omega) hz

/-- Everything the displacement form can do (R124, R125). -/
theorem branchDisp_eq (aa lk : Bool) (d : Int) (s : State) :
    branchDisp params aa lk d s =
      if ¬ d % 4 = 0 then .error .align
      else if ¬ (-8388607 ≤ d / 4 ∧ d / 4 ≤ 8388607) then .error .range
      else .ok (s.openWith (BitVec.ofNat 32
        (1207959552 + (d / 4 % 16777216).toNat * 4 + flagBit aa * 2 + flagBit lk))) := by
  by_cases ha : d % 4 = 0
  · by_cases hr : -8388607 ≤ d / 4 ∧ d / 4 ≤ 8388607
    · have hfa : flagBit aa < 2 := by cases aa <;> decide
      have hfl : flagBit lk < 2 := by cases lk <;> decide
      have hli := depSigned_li_toNat (BitVec.ofNat 32 (1207959552 + flagBit aa * 2 + flagBit lk)) (d / 4) (by omega)
        hr.2 (by simp only [field, zext, BitVec.toNat_ofNat]; omega)
      have hw : depSigned (BitVec.ofNat 32 (1207959552 + flagBit aa * 2 + flagBit lk)) (d / 4) 24 6 =
          BitVec.ofNat 32 (1207959552 + (d / 4 % 16777216).toNat * 4 + flagBit aa * 2 + flagBit lk) := by
        apply BitVec.eq_of_toNat_eq
        rw [hli]
        simp only [BitVec.toNat_ofNat]
        omega
      have hwsf := wsfStep_ok (v := d / 4) (width := 24) (offset := 6)
        (s := s.openWith (BitVec.ofNat 32 (1207959552 + flagBit aa * 2 + flagBit lk))) rfl (by omega) (by omega)
        (by norm_num; omega) (by norm_num; omega)
      simp only [branchDisp, branchBase_eq, bind, Except.bind, params_liBits]
      have hr' : branchInRange params d := hr
      rw [require_of _ ha, require_of _ hr', if_neg (not_not_intro ha), if_neg (not_not_intro hr)]
      simp only []
      rw [hwsf, State.openWith_w, hw, State.openWith_setW]
    · simp only [branchDisp, branchBase_eq, bind, Except.bind]
      have hr' : ¬ branchInRange params d := hr
      rw [require_of _ ha, require_of_not _ hr', if_neg (not_not_intro ha), if_pos hr]
  · simp only [branchDisp, branchBase_eq, bind, Except.bind]
    rw [require_of_not _ ha, if_pos ha]

/-- Every form of a branch is its displacement form on the offset it asks for (R123, R124, R126). -/
theorem branch_eq_disp (aa lk : Bool) (form : BranchForm) (s : State) :
    branch params aa lk form s =
      match formOffset params form with
      | .ok d => branchDisp params aa lk d s
      | .error c => .error c := by
  cases form with
  | base => simp [branch, formOffset, branchBase_eq, branchDisp_eq]
  | disp o => rfl
  | fromTo f t => simp [branch, formOffset, fromToOffset_eq, bind, Except.bind]

end Sys2Proof.Machine
end

