-- ==== Sys2Proof/Laws/Commands.lean ====
section
/-! SUPPORT. Say once what a command can do. -/

namespace Sys2Proof.Machine

/-- An effect that, on live states, opens the word or raises a cause. -/
def Opens (effect : State → Except Cause State) (s : State) : Prop :=
  (∃ w, effect s = .ok (s.openWith w)) ∨ ∃ c, effect s = .error c

theorem branch_opens (aa lk : Bool) (form : BranchForm) (s : State) : Opens (branch params aa lk form) s := by
  rw [Opens, branch_eq_disp]
  cases formOffset params form with
  | error c => exact .inr ⟨c, rfl⟩
  | ok d =>
    simp only [branchDisp_eq]
    split
    · exact .inr ⟨_, rfl⟩
    · split
      · exact .inr ⟨_, rfl⟩
      · exact .inl ⟨_, rfl⟩

theorem immForm_opens (op : Opcode) (a b i : Operand) (s : State) : Opens (immForm params op a b i) s := by
  rw [Opens, immForm_eq]
  split
  · exact .inl ⟨_, rfl⟩
  · exact .inr ⟨_, rfl⟩

theorem moveToSpr_opens (r id : Operand) (s : State) : Opens (moveToSpr params r id) s := by
  rw [Opens, moveToSpr_eq]
  split
  · exact .inl ⟨_, rfl⟩
  · exact .inr ⟨_, rfl⟩

theorem setW_eq_openWith {s : State} (h : s.ph = .opened) (w : Word) : s.setW w = s.openWith w := by
  simp [State.setW, State.openWith, h]

theorem wufStep_opens (value width offset : Nat) (s : State) : Opens (wufStep params value width offset) s := by
  rcases wufStep_cases value width offset s with ⟨_, h⟩ | ⟨_, _, h⟩ | ⟨_, _, _, h⟩ | ⟨hp, _, _, h⟩
  · exact .inr ⟨_, h⟩
  · exact .inr ⟨_, h⟩
  · exact .inr ⟨_, h⟩
  · exact .inl ⟨_, by rw [h, setW_eq_openWith hp]⟩

theorem wsfStep_opens (v : Int) (width offset : Nat) (s : State) : Opens (wsfStep params v width offset) s := by
  rcases wsfStep_cases v width offset s with ⟨_, h⟩ | ⟨_, _, h⟩ | ⟨_, _, _, h⟩ | ⟨_, _, _, _, h⟩ | ⟨hp, _, _, _, _, h⟩
  · exact .inr ⟨_, h⟩
  · exact .inr ⟨_, h⟩
  · exact .inr ⟨_, h⟩
  · exact .inr ⟨_, h⟩
  · exact .inl ⟨_, by rw [h, setW_eq_openWith hp]⟩

/-- What performing such an effect leaves. -/
theorem perform_of_opens {effect : State → Except Cause State} {s : State} (h : Opens effect s) :
    (s.ph = .fault ∧ perform effect s = s) ∨ (s.ph ≠ .fault ∧ ∃ w, perform effect s = s.openWith w) ∨
      (s.ph ≠ .fault ∧ ∃ c, perform effect s = s.raise c) := by
  rcases perform_cases effect s with h1 | ⟨hp, t, ht, h1⟩ | ⟨hp, c, _, h1⟩
  · exact .inl h1
  · rcases h with ⟨w, hw⟩ | ⟨c, hc⟩
    · exact .inr (.inl ⟨hp, w, by rw [h1]; exact Except.ok.inj (ht.symm.trans hw)⟩)
    · exact absurd (ht.symm.trans hc) (by simp)
  · exact .inr (.inr ⟨hp, c, h1⟩)

/-- Every encoder command is some effect, performed. -/
theorem exec_eq_perform (i : Instr) (s : State) :
    ∃ effect, Opens effect s ∧ exec i s = .next (perform effect s) := by
  cases i with
  | b f => exact ⟨_, branch_opens _ _ f s, rfl⟩
  | ba f => exact ⟨_, branch_opens _ _ f s, rfl⟩
  | bl f => exact ⟨_, branch_opens _ _ f s, rfl⟩
  | bla f => exact ⟨_, branch_opens _ _ f s, rfl⟩
  | addi d r i => exact ⟨_, immForm_opens _ d r i s, rfl⟩
  | addis d r i => exact ⟨_, immForm_opens _ d r i s, rfl⟩
  | ori d r i => exact ⟨_, immForm_opens _ d r i s, rfl⟩
  | mtspr r id => exact ⟨_, moveToSpr_opens r id s, rfl⟩
  | li d i => exact ⟨_, immForm_opens _ d 0 i s, rfl⟩
  | lis d i => exact ⟨_, immForm_opens _ d 0 i s, rfl⟩
  | nop => exact ⟨_, immForm_opens _ 0 0 0 s, rfl⟩
  | bctr => exact ⟨_, .inl ⟨_, branchCtr_eq s⟩, rfl⟩

/-- Every command is some effect, performed. -/
theorem execCommand_eq_perform (c : Command) (s : State) :
    ∃ effect, Opens effect s ∧ execCommand c s = .next (perform effect s) := by
  cases c with
  | new op => exact ⟨_, .inl ⟨_, rfl⟩, rfl⟩
  | wuf v w o => exact ⟨_, wufStep_opens _ _ _ s, rfl⟩
  | wsf v w o => exact ⟨_, wsfStep_opens _ _ _ s, rfl⟩
  | instr i => exact exec_eq_perform i s

/-- Everything a command can do to an instance: nothing in `FAULT` (R179); a word under construction, nothing else
changed; or a fault, `W` not written (R178). -/
theorem execCommand_cases (c : Command) (s : State) :
    (s.ph = .fault ∧ execCommand c s = .next s) ∨ (s.ph ≠ .fault ∧ ∃ w, execCommand c s = .next (s.openWith w)) ∨
      (s.ph ≠ .fault ∧ ∃ k, execCommand c s = .next (s.raise k)) := by
  obtain ⟨e, ho, he⟩ := execCommand_eq_perform c s
  rcases perform_of_opens ho with ⟨hp, h⟩ | ⟨hp, w, h⟩ | ⟨hp, k, h⟩
  · exact .inl ⟨hp, by rw [he, h]⟩
  · exact .inr (.inl ⟨hp, w, by rw [he, h]⟩)
  · exact .inr (.inr ⟨hp, k, by rw [he, h]⟩)

/-- The four things a step can take. -/
theorem takeRequest_cases (s : State) :
    (s.requests = [] ∧ takeRequest s = .next s) ∨
    (∃ rest, s.requests = .reset :: rest ∧ takeRequest s = .next (s.withRequests rest).assertReset) ∨
    (∃ c rest, s.requests = .command c :: rest ∧ takeRequest s = execCommand c (s.withRequests rest)) ∨
    (∃ c rest, s.requests = .resetDuring c :: rest ∧ takeRequest s = .refused .overlappingUse) ∨
    (∃ c d rest, s.requests = .commandDuring c d :: rest ∧ takeRequest s = .refused .overlappingUse) := by
  cases h : s.requests with
  | nil => exact .inl ⟨rfl, by simp [takeRequest, h]⟩
  | cons r rest =>
    cases r with
    | reset => exact .inr (.inl ⟨rest, rfl, by simp [takeRequest, h, execRequest]⟩)
    | command c => exact .inr (.inr (.inl ⟨c, rest, rfl, by simp [takeRequest, h, execRequest]⟩))
    | resetDuring c => exact .inr (.inr (.inr (.inl ⟨c, rest, rfl, by simp [takeRequest, h, execRequest]⟩)))
    | commandDuring c d => exact .inr (.inr (.inr (.inr ⟨c, d, rest, rfl, by simp [takeRequest, h, execRequest]⟩)))

end Sys2Proof.Machine
end

