-- ==== Sys2Proof/Laws/Encoding.lean ====
section
/-! SUPPORT. The words of the encoder as numbers, and their fields. -/

namespace Sys2Proof

open Machine

theorem flagBit_lt (f : Bool) : flagBit f < 2 := by cases f <;> decide

theorem sum_four (w x y z : Nat) : [w, x, y, z].sum = w + x + y + z := by simp [Nat.add_assoc]

theorem sum_five (v w x y z : Nat) : [v, w, x, y, z].sum = v + w + x + y + z := by simp [Nat.add_assoc]

/-- A place value named by its number: comparing the two by unfolding is too deep for the kernel. -/
theorem place_eq (k n : Nat) (h : 2 ^ k = n := by norm_num) : 2 ^ k = n := h

/-- Each layout's word as a number (R62 to R64). -/
theorem assemble_BR (a b c d : Nat) :
    assemble layoutBR [a, b, c, d] = BitVec.ofNat 32 (a * 67108864 + b * 4 + c * 2 + d) := by
  change BitVec.ofNat 32 [a * 2 ^ (32 - 0 - 6), b * 2 ^ (32 - 6 - 24), c * 2 ^ (32 - 30 - 1), d * 2 ^ (32 - 31 - 1)].sum = _
  rw [sum_four, place_eq (32 - 0 - 6) 67108864, place_eq (32 - 6 - 24) 4, place_eq (32 - 30 - 1) 2,
    place_eq (32 - 31 - 1) 1, Nat.mul_one]

theorem assemble_IMM (a b c d : Nat) :
    assemble layoutIMM [a, b, c, d] = BitVec.ofNat 32 (a * 67108864 + b * 2097152 + c * 65536 + d) := by
  change BitVec.ofNat 32 [a * 2 ^ (32 - 0 - 6), b * 2 ^ (32 - 6 - 5), c * 2 ^ (32 - 11 - 5), d * 2 ^ (32 - 16 - 16)].sum = _
  rw [sum_four, place_eq (32 - 0 - 6) 67108864, place_eq (32 - 6 - 5) 2097152, place_eq (32 - 11 - 5) 65536,
    place_eq (32 - 16 - 16) 1, Nat.mul_one]

theorem assemble_SPR (a b c d e : Nat) :
    assemble layoutSPR [a, b, c, d, e] = BitVec.ofNat 32 (a * 67108864 + b * 2097152 + c * 2048 + d * 2 + e) := by
  change BitVec.ofNat 32 [a * 2 ^ (32 - 0 - 6), b * 2 ^ (32 - 6 - 5), c * 2 ^ (32 - 11 - 10), d * 2 ^ (32 - 21 - 10),
    e * 2 ^ (32 - 31 - 1)].sum = _
  rw [sum_five, place_eq (32 - 0 - 6) 67108864, place_eq (32 - 6 - 5) 2097152, place_eq (32 - 11 - 10) 2048,
    place_eq (32 - 21 - 10) 2, place_eq (32 - 31 - 1) 1, Nat.mul_one]

@[simp] theorem immField_eq (i : Operand) : immField i = i.toNat := rfl

/-- A word of layout BR as a number (R62). -/
theorem wordBR_eq (aa lk : Bool) (form : BranchForm) :
    wordBR aa lk form = BitVec.ofNat 32 (1207959552 + liField form * 4 + flagBit aa * 2 + flagBit lk) :=
  assemble_BR 18 _ _ _

theorem liField_lt (form : BranchForm) : liField form < 16777216 := by
  unfold liField
  split <;> omega

/-- A word of layout IMM as a number (R63). -/
theorem wordIMM_eq (opc : Nat) (a b i : Operand) :
    wordIMM opc a b i = BitVec.ofNat 32 (opc * 67108864 + a.toNat * 2097152 + b.toNat * 65536 + i.toNat) :=
  assemble_IMM opc _ _ _

/-- A word of layout SPR as a number (R64). -/
theorem word_mtspr_eq (r id : Operand) :
    (Instr.mtspr r id).word = BitVec.ofNat 32 (2080375718 + r.toNat * 2097152 + swap10 id.toNat * 2048) := by
  have h := assemble_SPR 31 r.toNat (swap10 id.toNat) 467 0
  have he : (Instr.mtspr r id).word = assemble layoutSPR [31, r.toNat, swap10 id.toNat, 467, 0] := rfl
  rw [he, h]
  exact congrArg (BitVec.ofNat 32) (by omega)

theorem word_bctr_eq : Instr.bctr.word = 0x4E800420#32 := by decide

/-- An encoded command is well-formed and its word is its layout's. -/
theorem encode_eq_some {i : Instr} {w : Word} : encode i = some w ↔ i.wellFormed = true ∧ i.word = w := by
  unfold encode
  split <;> simp_all

@[simp] theorem fitUnless_isNone (ok : Bool) : (fitUnless ok).isNone = ok := by cases ok <;> rfl

theorem regFits_iff (r : Operand) : regFits r = true ↔ r.toNat < 32 := decide_eq_true_iff

theorem immFits_iff (i : Operand) : immFits i = true ↔ i.toNat < 65536 := decide_eq_true_iff

theorem sprFits_iff (id : Operand) : sprFits id = true ↔ id.toNat < 1024 := decide_eq_true_iff

/-- The displacement a form asks for is one 32-bit pattern read as signed. -/
theorem formOffset_eq (form : BranchForm) : ∃ o : Operand, formOffset params form = .ok o.toInt := by
  cases form with
  | base => exact ⟨0, rfl⟩
  | disp o => exact ⟨o, rfl⟩
  | fromTo f t => exact ⟨t - f, fromToOffset_eq f t⟩

/-- What a branch form raises, on the displacement it asks for (R174, R175). -/
theorem formRaises_cases (form : BranchForm) : ∃ o : Operand, formOffset params form = .ok o.toInt ∧
    ((¬ o.toInt % 4 = 0 ∧ formRaises form = some .align) ∨
     (o.toInt % 4 = 0 ∧ ¬ (-8388607 ≤ o.toInt / 4 ∧ o.toInt / 4 ≤ 8388607) ∧ formRaises form = some .range) ∨
     (o.toInt % 4 = 0 ∧ (-8388607 ≤ o.toInt / 4 ∧ o.toInt / 4 ≤ 8388607) ∧ formRaises form = none)) := by
  obtain ⟨o, ho⟩ := formOffset_eq form
  refine ⟨o, ho, ?_⟩
  rw [formRaises, ho]
  change _ ∧ (if ¬ branchAligned o.toInt then some Cause.align else
    if ¬ branchInRange params o.toInt then some .range else none) = _ ∨ _
  by_cases h1 : branchAligned o.toInt
  · by_cases h2 : branchInRange params o.toInt
    · exact .inr (.inr ⟨h1, h2, (if_neg (not_not_intro h1)).trans (if_neg (not_not_intro h2))⟩)
    · exact .inr (.inl ⟨h1, h2, (if_neg (not_not_intro h1)).trans (if_pos h2)⟩)
  · exact .inl ⟨h1, if_pos h1⟩

/-- The top six bits of an immediate encoder's word. -/
theorem wordIMM_opcode (opc : Nat) (a b i : Operand) (hop : opc < 64) (ha : a.toNat < 32) (hb : b.toNat < 32)
    (hi : i.toNat < 65536) : field (wordIMM opc a b i) 0 6 = opc := by
  simp only [wordIMM_eq, field, zext, BitVec.toNat_ofNat, Nat.shiftRight_eq_div_pow]
  omega

/-- The top six bits of a branch's word (R132 c). -/
theorem wordBR_opcode (aa lk : Bool) (form : BranchForm) : field (wordBR aa lk form) 0 6 = 18 := by
  have h1 := flagBit_lt aa
  have h2 := flagBit_lt lk
  have h3 := liField_lt form
  simp only [wordBR_eq, field, zext, BitVec.toNat_ofNat, Nat.shiftRight_eq_div_pow]
  omega

/-- The rows at the spec's values: the numbers of the opcode table (R75, spec/opcode_table.json). -/
theorem row_eq (i : Instr) :
    i.row = match i with
      | .b _ => ⟨"b", 0x48000000#32, 0xFC000003#32⟩
      | .ba _ => ⟨"ba", 0x48000002#32, 0xFC000003#32⟩
      | .bl _ => ⟨"bl", 0x48000001#32, 0xFC000003#32⟩
      | .bla _ => ⟨"bla", 0x48000003#32, 0xFC000003#32⟩
      | .addi _ _ _ => ⟨"addi", 0x38000000#32, 0xFC000000#32⟩
      | .addis _ _ _ => ⟨"addis", 0x3C000000#32, 0xFC000000#32⟩
      | .ori _ _ _ => ⟨"ori", 0x60000000#32, 0xFC000000#32⟩
      | .mtspr _ _ => ⟨"mtspr", 0x7C0003A6#32, 0xFC0007FF#32⟩
      | .li _ _ => ⟨"li", 0x38000000#32, 0xFC1F0000#32⟩
      | .lis _ _ => ⟨"lis", 0x3C000000#32, 0xFC1F0000#32⟩
      | .nop => ⟨"nop", 0x60000000#32, 0xFFFFFFFF#32⟩
      | .bctr => ⟨"bctr", 0x4E800420#32, 0xFFFFFFFF#32⟩ := by
  cases i <;> rfl

/-! ### The decoder at the spec's values -/

theorem decodeBranch_eq (w : Word) :
    decodeBranch w =
      if ¬ (-8388607 ≤ 4 * sext 24 (field w 6 24) / 4 ∧ 4 * sext 24 (field w 6 24) / 4 ≤ 8388607) then
        .error .displacementNeverEmitted
      else .ok (match bitAt w 30, bitAt w 31 with
        | false, false => .b (.disp (BitVec.ofInt _ (4 * sext 24 (field w 6 24))))
        | true, false => .ba (.disp (BitVec.ofInt _ (4 * sext 24 (field w 6 24))))
        | false, true => .bl (.disp (BitVec.ofInt _ (4 * sext 24 (field w 6 24))))
        | true, true => .bla (.disp (BitVec.ofInt _ (4 * sext 24 (field w 6 24))))) := rfl

theorem decodeSpr_eq (w : Word) :
    decodeSpr w =
      if field w 21 10 = 467 ∧ field w 31 1 = 0 then
        .ok (.mtspr (operandOf (field w 6 5)) (operandOf (swap10 (field w 11 10))))
      else .error .notMoveToSpr := rfl

theorem decodeWord_eq (w : Word) :
    decodeWord w =
      if field w 0 6 = 18 then decodeBranch w
      else if field w 0 6 = 14 then .ok (if operandOf (field w 11 5) = 0
        then .li (operandOf (field w 6 5)) (operandOf (field w 16 16))
        else .addi (operandOf (field w 6 5)) (operandOf (field w 11 5)) (operandOf (field w 16 16)))
      else if field w 0 6 = 15 then .ok (if operandOf (field w 11 5) = 0
        then .lis (operandOf (field w 6 5)) (operandOf (field w 16 16))
        else .addis (operandOf (field w 6 5)) (operandOf (field w 11 5)) (operandOf (field w 16 16)))
      else if field w 0 6 = 24 then .ok (if operandOf (field w 6 5) = 0 ∧ operandOf (field w 11 5) = 0 ∧
          operandOf (field w 16 16) = 0
        then .nop
        else .ori (operandOf (field w 6 5)) (operandOf (field w 11 5)) (operandOf (field w 16 16)))
      else if field w 0 6 = 31 then decodeSpr w
      else if field w 0 6 = 19 then (if w = 0x4E800420#32 then .ok .bctr else .error .notBranchCtr)
      else .error .unknownOpcode := rfl

/-- Decoding the bytes of a word is decoding the word (R42). -/
theorem decode_toBytes (w : Word) (rest : List Byte) :
    decode (toBytes w ++ rest) = match decodeWord w with | .ok i => .ok (i, rest) | .error e => .error e := by
  cases h : decodeWord w <;> simp only [toBytes, List.cons_append, List.nil_append, decode, ofBytes_toBytes, h]

/-- A field as a number. -/
theorem field_eq (w : Word) (o k : Nat) : field w o k = w.toNat / 2 ^ (32 - o - k) % 2 ^ k := by
  rw [field, zext, Nat.shiftRight_eq_div_pow]

theorem field_ofNat {n : Nat} (hn : n < 4294967296) (o k : Nat) :
    field (BitVec.ofNat 32 n) o k = n / 2 ^ (32 - o - k) % 2 ^ k := by
  rw [field_eq, BitVec.toNat_ofNat, Nat.mod_eq_of_lt hn]

end Sys2Proof
end

