-- ==== Sys2Proof/Laws/PerInstr.lean ====
section
/-! SUPPORT. Per-instruction families. OpcodeField: the word of a well-formed command has the command's opcode in its top six
bits, independent of operand values (R66). -/

namespace Sys2Proof.Laws.OpcodeField

open Machine

/-- "Every fixed-shape encoder must place the opcode in bits 0–5 matching its declared opcode constant" (R66). -/
def Statement (i : Instr) : Prop := ∀ w, encode i = some w → field w 0 6 = opcodeVal params i.opcode

theorem b (form : BranchForm) : Statement (.b form) := by
  intro w h
  obtain ⟨-, rfl⟩ := encode_eq_some.1 h
  exact wordBR_opcode _ _ form

theorem ba (form : BranchForm) : Statement (.ba form) := by
  intro w h
  obtain ⟨-, rfl⟩ := encode_eq_some.1 h
  exact wordBR_opcode _ _ form

theorem bl (form : BranchForm) : Statement (.bl form) := by
  intro w h
  obtain ⟨-, rfl⟩ := encode_eq_some.1 h
  exact wordBR_opcode _ _ form

theorem bla (form : BranchForm) : Statement (.bla form) := by
  intro w h
  obtain ⟨-, rfl⟩ := encode_eq_some.1 h
  exact wordBR_opcode _ _ form

theorem addi (destReg srcReg imm16 : Operand) : Statement (.addi destReg srcReg imm16) := by
  intro w h
  obtain ⟨hwf, rfl⟩ := encode_eq_some.1 h
  simp only [Instr.wellFormed, Instr.raises, fitUnless_isNone, Bool.and_eq_true, regFits_iff, immFits_iff] at hwf
  exact wordIMM_opcode _ _ _ _ (by decide) hwf.1.1 hwf.1.2 hwf.2

theorem addis (destReg srcReg imm16 : Operand) : Statement (.addis destReg srcReg imm16) := by
  intro w h
  obtain ⟨hwf, rfl⟩ := encode_eq_some.1 h
  simp only [Instr.wellFormed, Instr.raises, fitUnless_isNone, Bool.and_eq_true, regFits_iff, immFits_iff] at hwf
  exact wordIMM_opcode _ _ _ _ (by decide) hwf.1.1 hwf.1.2 hwf.2

theorem ori (destReg srcReg imm16 : Operand) : Statement (.ori destReg srcReg imm16) := by
  intro w h
  obtain ⟨hwf, rfl⟩ := encode_eq_some.1 h
  simp only [Instr.wellFormed, Instr.raises, fitUnless_isNone, Bool.and_eq_true, regFits_iff, immFits_iff] at hwf
  exact wordIMM_opcode _ _ _ _ (by decide) hwf.1.1 hwf.1.2 hwf.2

theorem mtspr (srcReg sprId : Operand) : Statement (.mtspr srcReg sprId) := by
  intro w h
  obtain ⟨hwf, rfl⟩ := encode_eq_some.1 h
  simp only [Instr.wellFormed, Instr.raises, fitUnless_isNone, Bool.and_eq_true, regFits_iff, sprFits_iff] at hwf
  have hs := swap10_lt _ hwf.2
  simp only [word_mtspr_eq, field, zext, BitVec.toNat_ofNat, Nat.shiftRight_eq_div_pow, Instr.opcode,
    opcodeVal_moveToSpecialRegister]
  omega

theorem li (destReg imm16 : Operand) : Statement (.li destReg imm16) := by
  intro w h
  obtain ⟨hwf, rfl⟩ := encode_eq_some.1 h
  simp only [Instr.wellFormed, Instr.raises, fitUnless_isNone, Bool.and_eq_true, regFits_iff, immFits_iff] at hwf
  exact wordIMM_opcode _ _ _ _ (by decide) hwf.1 (by decide) hwf.2

theorem lis (destReg imm16 : Operand) : Statement (.lis destReg imm16) := by
  intro w h
  obtain ⟨hwf, rfl⟩ := encode_eq_some.1 h
  simp only [Instr.wellFormed, Instr.raises, fitUnless_isNone, Bool.and_eq_true, regFits_iff, immFits_iff] at hwf
  exact wordIMM_opcode _ _ _ _ (by decide) hwf.1 (by decide) hwf.2

theorem nop : Statement .nop := by
  intro w h
  obtain ⟨-, rfl⟩ := encode_eq_some.1 h
  decide

theorem bctr : Statement .bctr := by
  intro w h
  obtain ⟨-, rfl⟩ := encode_eq_some.1 h
  decide

end Sys2Proof.Laws.OpcodeField
end

