-- ==== Sys2Proof/Laws/Step.lean ====
section
/-! SUPPORT. What a step and a run of steps do, by the event presented. -/

namespace Sys2Proof.Machine

/-- A run of one step more goes on from the step's next state. -/
theorem run_of_step (M : Host.Core) {k : Nat} {s t : M.State} (h : M.step s = .next t) : M.run (k + 1) s = M.run k t := by
  simp only [Host.Core.run, h]

/-- The same of this machine. -/
theorem run_succ {k : Nat} {s t : State} (h : step s = .next t) : core.run (k + 1) s = core.run k t := run_of_step core h

/-- The four things a step can do (R48, R185, R200). -/
theorem step_cases (s : State) :
    (s.requests = [] ∧ step s = .next s) ∨
    (∃ rest, s.requests = .reset :: rest ∧ step s = .next (s.withRequests rest).assertReset) ∨
    (∃ c rest, s.requests = .command c :: rest ∧ step s = execCommand c (s.withRequests rest)) ∨
    (∃ c rest, s.requests = .resetDuring c :: rest ∧ step s = .refused .overlappingUse) ∨
    (∃ c d rest, s.requests = .commandDuring c d :: rest ∧ step s = .refused .overlappingUse) :=
  takeRequest_cases s

/-- A presented command is performed, the rest still to come. -/
theorem step_withRequests_command (s : State) (c : Command) (rest : List Request) :
    step (s.withRequests (.command c :: rest)) = execCommand c (s.withRequests rest) := rfl

end Sys2Proof.Machine
end

