-- ==== Sys2Proof/Tests/Slice0.lean ====
section
/-! SUPPORT. Tests on fixed values, and for each statement with hypotheses a state and operands that meet them. Expected
results are those of spec/95_test_vectors.md (S, part 1; the numbered tables of part 2) or cut by hand from the layouts of
30_encoding.md. -/

namespace Sys2Proof.Tests

open Machine

/-- An instance with the given word under construction. -/
def openAt (w : Word) : State := { State.reset with w := w, ph := .opened }

/-- A dead instance. -/
def dead (c : Cause) : State := { State.reset with ph := .fault, fc := some c }

/-- The next state, if there is one. -/
def nextOf : Host.Outcome State Fault Refusal → Option State
  | .next s => some s
  | .fault _ => none
  | .refused _ => none

/-- The word offered after an outcome. -/
def wordAfter (o : Host.Outcome State Fault Refusal) : Option Word := (nextOf o).bind State.wordOut

/-- The cause shown after an outcome. -/
def causeAfter (o : Host.Outcome State Fault Refusal) : Option Cause := (nextOf o).bind State.fc

/-! ### Decoding words cut by hand from the layouts (R62 to R65) -/

-- 010010 | LI = 000000000000000001000000 | AA | LK: LI = 64, so the offset is 256.
theorem test_decode_b : decodeWord 0b01001000000000000000000100000000#32 = .ok (.b (.disp 256)) := by decide
theorem test_decode_ba : decodeWord 0b01001000000000000000000100000010#32 = .ok (.ba (.disp 256)) := by decide
theorem test_decode_bla : decodeWord 0b01001000000000000000000100000011#32 = .ok (.bla (.disp 256)) := by decide
-- LI = 111111111111111111000111 = −57.
theorem test_decode_bl : decodeWord 0b01001011111111111111111100011101#32 = .ok (.bl (.disp (-228))) := by decide
-- 001110 | 00011 | 00001 | 0111111111111111
theorem test_decode_addi : decodeWord 0b00111000011000010111111111111111#32 = .ok (.addi 3 1 0x7FFF) := by decide
-- 001111 | 11111 | 00001 | 1000000000000000
theorem test_decode_addis : decodeWord 0b00111111111000011000000000000000#32 = .ok (.addis 31 1 0x8000) := by decide
-- 011000 | 11111 | 00000 | 0000000000000001: the first operand at offset 6.
theorem test_decode_ori : decodeWord 0b01100011111000000000000000000001#32 = .ok (.ori 31 0 1) := by decide
-- 011111 | 00100 | SPRF = 10000 01000 | 0111010011 | 0: the identifier is 01000 10000 = 272.
theorem test_decode_mtspr : decodeWord 0b01111100100100000100001110100110#32 = .ok (.mtspr 4 272) := by decide
-- 001110 | 00011 | 00000 | 0000000000000001
theorem test_decode_li : decodeWord 0b00111000011000000000000000000001#32 = .ok (.li 3 1) := by decide
-- 001111 | 01010 | 00000 | 0000000000010000
theorem test_decode_lis : decodeWord 0b00111101010000000000000000010000#32 = .ok (.lis 10 0x10) := by decide
-- 011000 and zeros
theorem test_decode_nop : decodeWord 0b01100000000000000000000000000000#32 = .ok .nop := by decide
-- 010011 | 10100 | 00000 | 00000 | 1000010000 | 0
theorem test_decode_bctr : decodeWord 0b01001110100000000000010000100000#32 = .ok .bctr := by decide

/-- Words no command emits are refused by name (R74, R75, R77). -/
theorem test_decode_rejects :
    decodeWord 0x4A000000#32 = .error .displacementNeverEmitted ∧ decodeWord 0#32 = .error .unknownOpcode ∧
      decodeWord 0x7C0003A7#32 = .error .notMoveToSpr ∧ decodeWord 0x7C0003A4#32 = .error .notMoveToSpr ∧
      decodeWord 0x4E800421#32 = .error .notBranchCtr ∧ decode [0x60, 0, 0] = .error .truncated := by decide

/-- The bytes are taken most significant first, and what follows them is left (R42). -/
theorem test_decode_bytes : decode [0x60, 0x21, 0x00, 0x10, 0xAA] = .ok (.ori 1 1 0x10, [0xAA]) := by decide

/-! ### Well-formedness: an ill-formed command for each check -/

theorem test_wellFormed_register :
    (Instr.addi 32 0 0).wellFormed = false ∧ (Instr.addis 0 32 0).wellFormed = false ∧
      (Instr.ori 32 0 0).wellFormed = false ∧ (Instr.mtspr 32 9).wellFormed = false ∧
      (Instr.li 32 0).wellFormed = false ∧ (Instr.lis 32 0).wellFormed = false := by decide

theorem test_wellFormed_immediate :
    (Instr.addi 0 0 0x10000).wellFormed = false ∧ (Instr.ori 0 0 0xFFFFFFF0).wellFormed = false ∧
      (Instr.lis 10 0x10000).wellFormed = false ∧ (Instr.ori 31 31 0xFFFF).wellFormed = true := by decide

theorem test_wellFormed_identifier :
    (Instr.mtspr 1 1024).wellFormed = false ∧ (Instr.mtspr 31 1023).wellFormed = true := by decide

theorem test_wellFormed_branch :
    (Instr.b (.disp 6)).raises = some .align ∧ (Instr.bl (.disp 33554432)).raises = some .range ∧
      (Instr.ba (.disp (-33554432))).raises = some .range ∧ (Instr.bla (.fromTo 0x1000 0x1002)).raises = some .align ∧
      (Instr.b (.disp (-33554428))).wellFormed = true ∧ (Instr.bla .base).wellFormed = true := by decide

/-! ### The source's vectors, through exec -/

theorem test_S1 : wordAfter (execCommand (.new .branch) State.reset) = some 0x48000000#32 ∧
    wordAfter (exec (.b .base) State.reset) = some 0x48000000#32 := by decide

theorem test_S2 : wordAfter (exec (.b (.fromTo 0x028CC534 0x028CC450)) State.reset) = some 0x4BFFFF1C#32 ∧
    wordAfter (exec (.b (.disp (-228))) State.reset) = some 0x4BFFFF1C#32 := by decide

theorem test_S3 : wordAfter (exec (.ori 1 1 0x10) State.reset) = some 0x60210010#32 := by decide

theorem test_S4 : wordAfter (exec (.lis 10 0x10) State.reset) = some 0x3D400010#32 := by decide

theorem test_S5 : wordAfter (exec (.mtspr 10 9) State.reset) = some 0x7D4903A6#32 := by decide

theorem test_S6 : wordAfter (exec .bctr State.reset) = some 0x4E800420#32 := by decide

/-! ### The derived vectors, one or two an instruction -/

/-- Table 2.4: the flags, and the corners of the range. -/
theorem test_branch_corners :
    wordAfter (exec (.b (.disp 33554428)) State.reset) = some 0x49FFFFFC#32 ∧
      wordAfter (exec (.b (.disp (-33554428))) State.reset) = some 0x4A000004#32 ∧
      causeAfter (exec (.b (.disp 2147483647)) State.reset) = some .align ∧
      causeAfter (exec (.b (.disp (-33554432))) State.reset) = some .range := by decide

theorem test_branch_flags :
    wordAfter (exec (.ba (.disp (-228))) State.reset) = some 0x4BFFFF1E#32 ∧
      wordAfter (exec (.bl (.disp 256)) State.reset) = some 0x48000101#32 ∧
      wordAfter (exec (.bla (.disp (-228))) State.reset) = some 0x4BFFFF1F#32 := by decide

/-- Table 2.4: a difference that wraps, and misaligned addresses whose difference is aligned. -/
theorem test_from_to :
    wordAfter (exec (.b (.fromTo 0x7FFFFFF0 0x80000010)) State.reset) = some 0x48000020#32 ∧
      wordAfter (exec (.bl (.fromTo 0x1002 0x1006)) State.reset) = some 0x48000005#32 ∧
      causeAfter (exec (.b (.fromTo 0x10000000 0x028CC450)) State.reset) = some .range := by decide

/-- Table 2.5. -/
theorem test_addi : wordAfter (exec (.addi 1 1 0xFFF0) State.reset) = some 0x3821FFF0#32 ∧
    causeAfter (exec (.addi 0 0 0x10000) State.reset) = some .fit := by decide

theorem test_addis : wordAfter (exec (.addis 31 0 0x8000) State.reset) = some 0x3FE08000#32 := by decide

/-- Table 2.5: a fault at the third step shows nothing of the command. -/
theorem test_ori : wordAfter (exec (.ori 0 31 1) State.reset) = some 0x601F0001#32 ∧
    nextOf (exec (.ori 1 32 0x10) (openAt 0x48000000#32)) = some ((openAt 0x48000000#32).raise .fit) := by decide

/-- Table 2.6. -/
theorem test_mtspr : wordAfter (exec (.mtspr 4 272) State.reset) = some 0x7C9043A6#32 ∧
    causeAfter (exec (.mtspr 1 1024) State.reset) = some .fit := by decide

/-- Table 2.7. -/
theorem test_derived :
    wordAfter (exec (.li 0 0xFFFF) State.reset) = some 0x3800FFFF#32 ∧
      causeAfter (exec (.lis 10 0x10000) State.reset) = some .fit ∧
      wordAfter (exec .nop State.reset) = some 0x60000000#32 := by decide

/-- Table 2.1: the old word is discarded. -/
theorem test_new : wordAfter (execNew .orImmediate (openAt 0x4BFFFF1C#32)) = some 0x60000000#32 := by decide

/-- Table 2.2: overlap, and the order of the checks. -/
theorem test_wuf : wordAfter (execWuf 10 5 6 (openAt 0x60A00000#32)) = some 0x61E00000#32 ∧
    causeAfter (execWuf 64 6 30 (openAt 0#32)) = some .span := by decide

theorem test_wuf_empty : wordAfter (execWuf 0 0 32 (openAt 0#32)) = some 0#32 ∧
    causeAfter (execWuf 1 0 10 (openAt 0#32)) = some .fit := by decide

/-- Table 2.3. -/
theorem test_wsf : wordAfter (execWsf (-3) 3 13 (openAt 0#32)) = some 0x00050000#32 ∧
    causeAfter (execWsf (-8388609) 24 6 (openAt 0#32)) = some .fit := by decide

theorem test_wsf_widths : wordAfter (execWsf 0x80000000 32 0 (openAt 0#32)) = some 0x80000000#32 ∧
    wordAfter (execWsf (-1) 1 31 (openAt 0#32)) = some 1#32 ∧
    causeAfter (execWsf 0 0 5 (openAt 0#32)) = some .fit := by decide

/-- Tables 2.2, 2.3: a field write before any opcode. -/
theorem test_order : causeAfter (execWuf 1 5 6 State.reset) = some .order ∧
    causeAfter (execWsf 1 24 6 State.reset) = some .order := by decide

/-- R179, table 2.1: nothing happens in `FAULT`. -/
theorem test_fault_absorbs : nextOf (execNew .branch (dead .fit)) = some (dead .fit) ∧
    nextOf (exec .nop (dead .range)) = some (dead .range) := by decide

/-- Table 2.8. -/
theorem test_bytes : toBytes 0x4BFFFF1C#32 = [0x4B, 0xFF, 0xFF, 0x1C] := by decide

/-! ### The other readings of the named choices -/

/-- D8, table 2.3: a literal mask gives −8388609 the field of −1. -/
theorem test_mask_reading :
    (wsfStep { params with wsfNegCheck := .mask } (-8388609) 24 6 (openAt 0#32)).toOption = some (openAt 0x03FFFFFC#32) := by
  decide

/-- D11: under the signed writer −16 is admitted and 0xFFF0 is not. -/
theorem test_signed_writer_reading :
    (immForm { params with imm16Writer := .signed } .addImmediate 1 1 (-16) (openAt 0#32)).toOption =
      some (openAt 0x3821FFF0#32) ∧
    (immForm { params with imm16Writer := .signed } .addImmediate 1 1 0xFFF0 (openAt 0#32)).toOption = none := by
  decide

/-- D12, table 2.4: with `FROM_TO_OVERFLOW = fault` the wrapping difference is refused. -/
theorem test_overflow_reading :
    (branch { params with fromToOverflow := .fault } false false (.fromTo 0x7FFFFFF0 0x80000010) (openAt 0#32)).toOption =
      none := by decide

/-- D13: with the test after the swap alone, 1024 is admitted. -/
theorem test_after_swap_reading :
    ((moveToSpr { params with sprIdCheck := .afterSwap } 1 1024 (openAt 0#32)).toOption.map State.w) =
      some 0x7C2103A6#32 := by decide

/-! ### The opcode table -/

/-- The rows are put together from the layouts and the parameters; match and mask are those of spec/opcode_table.json. -/
theorem test_rows :
    (Instr.bla .base).row = ⟨"bla", 0x48000003#32, 0xFC000003#32⟩ ∧
      (Instr.li 0 0).row = ⟨"li", 0x38000000#32, 0xFC1F0000#32⟩ ∧
      (Instr.mtspr 0 0).row = ⟨"mtspr", 0x7C0003A6#32, 0xFC0007FF#32⟩ ∧
      Instr.bctr.row = ⟨"bctr", 0x4E800420#32, 0xFFFFFFFF#32⟩ := by decide

/-! ### The host's questions -/

theorem test_table_word : decodeTableWord 32 0x60000000 = some .nop ∧ decodeTableWord 32 0x7D4903A6 = some (.mtspr 10 9) ∧
    decodeTableWord 32 0x4A000000 = none := by decide

/-- A placed word is what the next step performs, from reset. -/
theorem test_placed_word : wordAfter (step (State.reset.withFetchWord 32 0x4BFFFF1D)) = some 0x4BFFFF1D#32 ∧
    wordAfter (step (State.reset.withFetchWord 32 0x4E800420)) = some 0x4E800420#32 := by decide

/-- With nothing presented a step changes nothing; reset leaves `FAULT`; an overlapping use is refused. -/
theorem test_step : nextOf (step State.reset) = some State.reset ∧
    nextOf (step ((dead .fit).withRequests [.reset])) = some State.reset ∧
    nextOf (step (State.reset.withRequests [.resetDuring (.instr .nop)])) = none := by decide

/-! ### Witnesses: for each statement with hypotheses, values that meet them together -/

theorem test_witness_OnlyResetRecovers :
    (∃ t, step ((dead .fit).withRequests [.reset]) = .next t ∧ (dead .fit).ph = .fault ∧ t.ph ≠ .fault) ∧
    (∃ t, step ((openAt 1#32).withRequests [.reset]) = .next t ∧ (openAt 1#32).ph ≠ .idle ∧ t.ph = .idle) ∧
    (State.reset.withRequests [.resetDuring (.instr .nop)]).requests = [.resetDuring (.instr .nop)] :=
  ⟨⟨_, rfl, by decide⟩, ⟨_, rfl, by decide⟩, rfl⟩

theorem test_witness_StepKeepsInvariant :
    (State.reset.withRequests [.command (.wuf 1 5 6)]).Inv ∧
      ∃ t, step (State.reset.withRequests [.command (.wuf 1 5 6)]) = .next t ∧ t.ph = .fault :=
  ⟨by decide, _, rfl, rfl⟩

theorem test_witness_PhaseTransitions :
    (∃ t, execCommand (.new .branch) (dead .fit) = .next t ∧ (dead .fit).ph = .fault) ∧
    (∃ t, execCommand (.wuf 32 5 6) (openAt 0#32) = .next t ∧ (openAt 0#32).ph = .opened) ∧
    (∃ t, execCommand (.wuf 0 0 0) State.reset = .next t ∧ State.reset.ph = .idle ∧
      (Command.wuf 0 0 0).deposit ≠ none) :=
  ⟨⟨_, rfl, rfl⟩, ⟨_, rfl, rfl⟩, ⟨_, rfl, rfl, by decide⟩⟩

theorem test_witness_FirstCommandAfterReset :
    (State.reset.ph = .idle ∧ (Instr.b (.disp 33554428)).wellFormed = true ∧ (openAt 0#32).ph = .opened) ∧
      ∃ t, execCommand (.new .branch) State.reset = .next t ∧ t.ph ≠ .fault := ⟨by decide, _, rfl, by decide⟩

theorem test_witness_FaultEntry :
    (openAt 7#32).Live ∧ immForm params .addImmediate 0 32 0 (openAt 7#32) = .error .fit ∧ ∃ t, execCommand (.instr (.addi 0 32 0)) (openAt 7#32) = .next t ∧ t.ph = .fault :=
  ⟨by decide, rfl, _, rfl, rfl⟩

theorem test_witness_FaultIsTerminal :
    (dead .span).ph = .fault ∧ (∃ t, step ((dead .span).withRequests [.command (.new .branch)]) = .next t) ∧
      (∀ rest, ((dead .span).withRequests [.command (.new .branch)]).requests ≠ .reset :: rest) :=
  ⟨rfl, ⟨_, rfl⟩, fun _ h => by cases h⟩

theorem test_witness_CausesByCommand :
    (∃ t, execCommand (.wsf 1 24 6) State.reset = .next t ∧ State.reset.Live ∧ t.ph = .fault ∧ t.fc = some .order) ∧
    (∃ t, execCommand (.instr (.b (.disp 33554432))) (openAt 0#32) = .next t ∧ t.ph = .fault ∧ t.fc = some .range) :=
  ⟨⟨_, rfl, by decide⟩, ⟨_, rfl, by decide⟩⟩

theorem test_witness_IllFormedOperandsRaise :
    State.reset.Live ∧ (Instr.bla (.fromTo 0 0x02000000)).raises = some .range ∧ (Instr.li 32 0).raises = some .fit ∧
      (Instr.bl (.disp (-33554429))).raises = some .align := by decide

theorem test_witness_NewStartsWord : State.reset.Live ∧ (openAt 1#32).Live ∧ (dead .fit).ph = .fault := by decide

theorem test_witness_WsfIsTwosComplement :
    (openAt 0#32).ph = .opened ∧ 1 ≤ (32 : FieldPort).val ∧ (0 : FieldPort).val + (32 : FieldPort).val ≤ 32 ∧
      -(2 ^ ((32 : FieldPort).val - 1)) ≤ (0x80000000 : Operand).toInt ∧
      (0x80000000 : Operand).toInt ≤ 2 ^ ((32 : FieldPort).val - 1) - 1 ∧ field (openAt 0#32).w 0 32 = 0 := by decide

theorem test_witness_WufReadsBack :
    (openAt 0#32).ph = .opened ∧ (27 : FieldPort).val + (5 : FieldPort).val ≤ 32 ∧
      (31 : Operand).toNat < 2 ^ (5 : FieldPort).val ∧ field (openAt 0#32).w 27 5 = 0 := by decide

theorem test_witness_DepositTouchesOnlyItsField :
    26 + 6 ≤ 32 ∧ 63 < 2 ^ 6 ∧ field (0xFFFFFFC0#32) 26 6 = 0 ∧ 25 < 32 ∧ 25 < 26 := by decide

theorem test_witness_OneBitsOnlyGrow :
    (Command.wuf 10 5 6).deposit ≠ none ∧ ∃ t, execCommand (.wuf 10 5 6) (openAt 0x60A00000#32) = .next t :=
  ⟨by decide, _, rfl⟩

theorem test_witness_NoBitSurvives :
    (Command.new .branch).deposit = none ∧ (Command.instr .bctr).deposit = none ∧ (openAt 0xFFFFFFFF#32).Live := by decide

theorem test_witness_DepositOrderIrrelevant :
    (∀ c ∈ [Command.wuf 1 5 6, .wsf (-1) 16 16], c.deposit ≠ none) ∧
    [Command.wuf 1 5 6, .wsf (-1) 16 16].Perm [.wsf (-1) 16 16, .wuf 1 5 6] ∧ (openAt 0x60000000#32).ph = .opened ∧
    ∃ t, core.run 2 ((openAt 0x60000000#32).withRequests [.command (.wuf 1 5 6), .command (.wsf (-1) 16 16)]) = .next t ∧
      State.ph t = .opened :=
  ⟨by decide, List.Perm.swap _ _ _, rfl, _, rfl, rfl⟩

theorem test_witness_DisjointDepositsReadBack :
    [Command.wuf 1 5 6, .wsf (-1) 16 16].Pairwise
      (fun c d => ∀ f ∈ c.deposit, ∀ g ∈ d.deposit, disjointFields f g) ∧
    (∀ c ∈ [Command.wuf 1 5 6, .wsf (-1) 16 16], ∃ f, c.deposit = some f ∧ field (openAt 0x60000000#32).w f.1 f.2 = 0) ∧
    (openAt 0x60000000#32).ph = .opened ∧
    ∃ t, core.run 2 ((openAt 0x60000000#32).withRequests [.command (.wuf 1 5 6), .command (.wsf (-1) 16 16)]) = .next t ∧
      State.ph t = .opened := by
  refine ⟨?_, ?_, rfl, _, rfl, rfl⟩
  · simp [Command.deposit, disjointFields]
  · intro c hc
    simp only [List.mem_cons, List.not_mem_nil, or_false] at hc
    rcases hc with rfl | rfl
    · exact ⟨(6, 5), rfl, by decide⟩
    · exact ⟨(16, 16), rfl, by decide⟩

theorem test_witness_BranchBaseWords : State.reset.Live ∧ (openAt 0xFFFFFFFF#32).Live := by decide

theorem test_witness_BranchClosedForm :
    State.reset.Live ∧ (33554428 : Operand).toInt % 4 = 0 ∧ -33554428 ≤ (33554428 : Operand).toInt ∧
      (33554428 : Operand).toInt ≤ 33554428 ∧ (-33554428 : Operand).toInt % 4 = 0 ∧
      -33554428 ≤ (-33554428 : Operand).toInt ∧ (-33554428 : Operand).toInt ≤ 33554428 := by decide

theorem test_witness_BranchFaults :
    State.reset.Live ∧ (33554430 : Operand).toInt % 4 ≠ 0 ∧
    ((33554432 : Operand).toInt % 4 = 0 ∧ 33554428 < (33554432 : Operand).toInt) ∧
    ((-33554432 : Operand).toInt % 4 = 0 ∧ (-33554432 : Operand).toInt < -33554428) ∧
    ((0x1002 : Operand) - 0x1000).toInt % 4 ≠ 0 ∧
    (((0 : Operand) - 0x02000000).toInt % 4 = 0 ∧ ((0 : Operand) - 0x02000000).toInt < -33554428) := by decide

theorem test_witness_BranchFamilyLaws :
    (State.reset.Live ∧ (-228 : Operand).toInt % 4 = 0 ∧ -33554428 ≤ (-228 : Operand).toInt ∧
      (-228 : Operand).toInt ≤ 33554428) ∧
    ∃ t, exec (branchInstr true false (.disp (-228))) State.reset = .next t ∧ t.ph = .opened :=
  ⟨by decide, _, rfl, rfl⟩

theorem test_witness_ImmediateClosedForm :
    ((Instr.addi, 14) ∈ [(Instr.addi, 14), (Instr.addis, 15), (Instr.ori, 24)]) ∧ State.reset.Live ∧
    ((31 : Operand).toNat < 32 ∧ (65535 : Operand).toNat < 65536) ∧
    (32 ≤ (32 : Operand).toNat ∧ 65536 ≤ (65536 : Operand).toNat) ∧
    ∃ t, exec (.addi 31 31 0xFFFF) State.reset = .next t ∧ t.ph = .opened :=
  ⟨by simp, by decide, by decide, by decide, _, rfl, rfl⟩

theorem test_witness_HalfSwap : 1023 < 1024 ∧ swap10 272 = 520 := by decide

theorem test_witness_MoveToSprOutcome :
    State.reset.Live ∧ (31 : Operand).toNat < 32 ∧ (1023 : Operand).toNat < 1024 ∧ 32 ≤ (32 : Operand).toNat ∧
      1024 ≤ (1024 : Operand).toNat := by decide

theorem test_witness_MoveToSprLaws :
    State.reset.Live ∧ ∃ t, exec (.mtspr 31 1023) State.reset = .next t ∧ t.ph = .opened := ⟨by decide, _, rfl, rfl⟩

theorem test_witness_BranchCtrWord : (openAt 0x48000000#32).Live := by decide

theorem test_witness_ShiftedAndNop :
    State.reset.Live ∧ (31 : Operand).toNat < 32 ∧ (0xFFFF : Operand).toNat < 65536 ∧ 32 ≤ (32 : Operand).toNat ∧
      65536 ≤ (0x10000 : Operand).toNat := by decide

theorem test_witness_LoadImmediateWord :
    State.reset.Live ∧ (31 : Operand).toNat < 32 ∧ (0xFFFF : Operand).toNat < 65536 ∧ 32 ≤ (32 : Operand).toNat ∧
      65536 ≤ (0x10000 : Operand).toNat := by decide

theorem test_witness_OutputsByPhase :
    (openAt 1#32).ph = .opened ∧ State.reset.ph ≠ .opened ∧ (dead .fit).ph ≠ .opened ∧
      ∃ t, exec (.ori 1 1 0x10) State.reset = .next t ∧ State.reset.Live ∧ t.ph ≠ .fault :=
  ⟨by decide, by decide, by decide, _, rfl, by decide⟩

theorem test_witness_BytesBigEndian : toBytes 0x60210010#32 = toBytes 0x60210010#32 := rfl

theorem test_witness_LayoutsTile : layoutSPR ∈ [layoutBR, layoutIMM, layoutSPR, layoutCTR] := by decide

theorem test_witness_DecodeOfEncode :
    encode (.b (.fromTo 0x028CC534 0x028CC450)) = some 0x4BFFFF1C#32 ∧ encode (.addi 3 0 1) = some 0x38600001#32 ∧
      encode (.mtspr 31 1023) = some 0x7FFFFBA6#32 := by decide

theorem test_witness_EncodeOfDecode :
    decodeWord 0x7FFFFBA6#32 = .ok (.mtspr 31 1023) ∧ decodeWord 0x4A000004#32 = .ok (.b (.disp (-33554428))) := by decide

theorem test_witness_RowWordsExactly :
    (∃ i : Instr, i.row = (Instr.addi 0 0 0).row ∧ encode i = some 0x38600001#32) ∧
    (0x4A000004#32 &&& (Instr.b .base).row.mask = (Instr.b .base).row.pattern ∧ field 0x4A000004#32 6 24 ≠ 0x800000) :=
  ⟨⟨.addi 3 0 1, by decide⟩, by decide⟩

theorem test_witness_ExecEmitsItsWord :
    (openAt 0xFFFFFFFF#32).Live ∧ (Instr.b .base).wellFormed = true ∧ (Instr.ba (.disp 33554428)).wellFormed = true ∧
      (Instr.bl (.disp (-33554428))).wellFormed = true ∧ (Instr.bla (.fromTo 0xFFFFFFF0 0x10)).wellFormed = true ∧
      (Instr.addi 31 31 0xFFFF).wellFormed = true ∧ (Instr.addis 0 0 0).wellFormed = true ∧
      (Instr.ori 1 1 0x10).wellFormed = true ∧ (Instr.mtspr 31 1023).wellFormed = true ∧
      (Instr.li 3 1).wellFormed = true ∧ (Instr.lis 10 0x10).wellFormed = true ∧ Instr.nop.wellFormed = true ∧
      Instr.bctr.wellFormed = true := by decide

theorem test_witness_OpcodeInPlace :
    State.reset.Live ∧ ∃ t, exec (.ori 31 31 0xFFFF) State.reset = .next t ∧ t.ph = .opened := ⟨by decide, _, rfl, rfl⟩

theorem test_witness_StepTakesFirstRequest :
    (State.reset.withRequests [.command (.instr .nop), .reset]).requests = .command (.instr .nop) :: [.reset] ∧
      State.reset.requests = [] := by decide

theorem test_witness_PlacedWordRuns : decodeTableWord 32 0x3D400010 = some (.lis 10 0x10) := by decide

theorem test_witness_CommandFrame :
    (∃ t, execCommand (.wuf 31 5 6) (openAt 0#32) = .next t ∧ t.ph ≠ .fault ∧ (Command.wuf 31 5 6).deposit ≠ none) ∧
    (∃ t, execCommand (.wuf 32 5 6) (openAt 0#32) = .next t ∧ t.ph = .fault) :=
  ⟨⟨_, rfl, by decide⟩, ⟨_, rfl, rfl⟩⟩

theorem test_witness_StepStopsOnlyOnOverlap :
    (State.reset.withRequests [.resetDuring (.new .branch)]).requests = .resetDuring (.new .branch) :: [] ∧
      ((dead .fit).withRequests [.commandDuring (.instr .nop) (.instr .bctr), .reset]).requests =
        .commandDuring (.instr .nop) (.instr .bctr) :: [.reset] := by decide

theorem test_witness_InstancesIndependent :
    [State.reset, dead .fit][1]? = some (dead .fit) ∧ (∃ t, step (dead .fit) = .next t) ∧ ∃ ts us, stepInstance 0 [State.reset.withRequests [.command (.new .branch)], dead .fit] = .next ts ∧
      stepInstance 1 ts = .next us ∧ (0 : Nat) ≠ 1 := ⟨rfl, ⟨_, rfl⟩, _, _, rfl, rfl, by decide⟩

theorem test_witness_ImmediateWritersAgree : (0x7FFF : Operand).toNat ≤ 0x7FFF := by decide

theorem test_witness_FromToOverflowAgree :
    -(2 ^ 31) ≤ (0x7FFFFFFF : Operand).toInt - (0 : Operand).toInt ∧
      (0x7FFFFFFF : Operand).toInt - (0 : Operand).toInt < 2 ^ 31 := by decide

end Sys2Proof.Tests
end

/-! PROOF. The immediate encoders on a live state: the word as an OR of its shifted fields, or `FIT`; and from it the
obligation on `LoadImmediate`. -/

namespace Sys2Proof.Machine

/-- The bridge from `dep`, which shifts the number, to the closed forms of the spec, which shift its pattern. -/
theorem ofNat_natShiftLeft (n k : Nat) : BitVec.ofNat 32 (n <<< k) = BitVec.ofNat 32 n <<< k := by
  apply BitVec.eq_of_toNat_eq
  simp [Nat.shiftLeft_eq]

/-- Four fields side by side, read as the OR the spec's closed form writes (R144): the deposits of R13, undone. -/
theorem imm_fields_eq_or {op a b i : Nat} (hop : op < 64) (ha : a < 32) (hb : b < 32) (hi : i < 65536) :
    BitVec.ofNat 32 (op * 67108864 + a * 2097152 + b * 65536 + i) =
      BitVec.ofNat 32 op <<< 26 ||| BitVec.ofNat 32 a <<< 21 ||| BitVec.ofNat 32 b <<< 16 ||| BitVec.ofNat 32 i := by
  have hopc : BitVec.ofNat 32 (op * 67108864) = BitVec.ofNat 32 op <<< 26 := by
    rw [← ofNat_natShiftLeft, Nat.shiftLeft_eq]
  rw [← dep_imm_fields op a b i hop ha hb hi, hopc]
  simp only [dep, ofNat_natShiftLeft, Nat.reduceSub, BitVec.shiftLeft_zero]

/-- An immediate encoder whose operands fit, performed on a live state (R144). -/
theorem perform_immForm_fits (op : Opcode) {a b i : Operand} {s : State} (hs : s.Live) (ha : a.toNat < 32)
    (hb : b.toNat < 32) (hi : i.toNat < 65536) :
    perform (immForm params op a b i) s = s.openWith (BitVec.ofNat 32 (opcodeVal params op) <<< 26 |||
      BitVec.ofNat 32 a.toNat <<< 21 ||| BitVec.ofNat 32 b.toNat <<< 16 ||| BitVec.ofNat 32 i.toNat) := by
  rw [perform_ok hs ((immForm_eq op a b i s).trans (if_pos ⟨ha, hb, hi⟩)),
    imm_fields_eq_or (opcodeVal_lt op) ha hb hi]

/-- An immediate encoder with an operand too wide for its field, performed on a live state (R144, R172). -/
theorem perform_immForm_unfit (op : Opcode) {a b i : Operand} {s : State} (hs : s.Live)
    (h : 32 ≤ a.toNat ∨ 32 ≤ b.toNat ∨ 65536 ≤ i.toNat) : perform (immForm params op a b i) s = s.raise .fit := by
  have hfit : ¬ (a.toNat < 32 ∧ b.toNat < 32 ∧ i.toNat < 65536) := by omega
  exact perform_error hs ((immForm_eq op a b i s).trans (if_neg hfit))

/-- `LoadImmediate` is `AddImmediate` with source register 0 (R161). -/
theorem exec_li (r i : Operand) (s : State) : exec (.li r i) s = exec (.addi r 0 i) s := rfl

/-- `AddImmediate` is the immediate form with its own opcode, performed (R141). -/
theorem exec_addi (a b i : Operand) (s : State) :
    exec (.addi a b i) s = .next (perform (immForm params .addImmediate a b i) s) := rfl

/-- The closed form of an immediate word with opcode 14 and second register 0. -/
theorem li_word_or (a i : Word) :
    BitVec.ofNat 32 14 <<< 26 ||| a ||| BitVec.ofNat 32 (0 : Operand).toNat <<< 16 ||| i = 0x38000000#32 ||| a ||| i := by
  have hzero : BitVec.ofNat 32 (0 : Operand).toNat <<< 16 = 0#32 := by decide
  have hopc : BitVec.ofNat 32 14 <<< 26 = 0x38000000#32 := by decide
  rw [hzero, hopc, BitVec.or_zero]

end Sys2Proof.Machine

namespace Sys2Proof

open Machine

/-- Settles O33: `li` is `addi` with source register 0, whose word is the four shifted fields, the second register's
being empty; a register or immediate that does not fit raises `FIT`. -/
theorem loadImmediateWord : Obligations.LoadImmediateWord := by
  refine ⟨exec_li, fun r i s hs hr hi => ?_, fun r i s hs h => ?_⟩
  · rw [exec_li, exec_addi, perform_immForm_fits .addImmediate hs hr (by decide) hi, opcodeVal_addImmediate, li_word_or]
  · rw [exec_li, exec_addi, perform_immForm_unfit .addImmediate hs (h.imp_right .inr)]

end Sys2Proof

/-! PROOF. The state of the block: the invariant and the phases through every event, what an encoder command does on a
live state (its layout's word, or the cause its operands raise), and several instances side by side; and from these the
obligations on the state. -/

namespace Sys2Proof.Machine

/-! ### The invariant (R22, R23) -/

/-- The invariant speaks of `W`, `PH` and `FC` only, never of what is still to be presented. -/
@[simp] theorem State.inv_withRequests (s : State) (rs : List Request) : (s.withRequests rs).Inv ↔ s.Inv := Iff.rfl

theorem State.inv_reset : State.reset.Inv := by decide

theorem State.inv_assertReset (s : State) : s.assertReset.Inv := by simp [State.Inv]

/-- Opening a word leaves `FC` alone, so only a live state may do it (R23). -/
theorem State.Inv.openWith {s : State} (h : s.Inv) (hs : s.Live) (w : Word) : (s.openWith w).Inv := by
  obtain ⟨-, hfc⟩ := h
  have hnone : s.fc = none := hfc.2 hs
  simp [State.Inv, hnone]

theorem State.inv_raise (s : State) (c : Cause) : (s.raise c).Inv := by simp [State.Inv]

theorem execCommand_keeps_inv {c : Command} {s t : State} (h : s.Inv) (hc : execCommand c s = .next t) : t.Inv := by
  rcases execCommand_cases c s with ⟨-, he⟩ | ⟨hs, w, he⟩ | ⟨-, k, he⟩ <;> rw [he] at hc <;> cases hc
  · exact h
  · exact h.openWith hs w
  · exact s.inv_raise k

theorem step_keeps_inv {s t : State} (h : s.Inv) (hst : step s = .next t) : t.Inv := by
  rcases step_cases s with ⟨-, he⟩ | ⟨rest, -, he⟩ | ⟨c, rest, -, he⟩ | ⟨c, rest, -, he⟩ | ⟨c, d, rest, -, he⟩ <;>
    rw [he] at hst
  · cases hst
    exact h
  · cases hst
    exact State.inv_assertReset _
  · exact execCommand_keeps_inv ((s.inv_withRequests rest).2 h) hst
  · cases hst
  · cases hst

/-! ### The phases (R22) -/

/-- A field write with no word under construction raises `ORDER`, whatever its operands (R102, R104). -/
theorem execCommand_deposit_order {c : Command} {s : State} (hd : c.deposit ≠ none) (hs : s.Live)
    (ho : s.ph ≠ .opened) : execCommand c s = .next (s.raise .order) := by
  cases c with
  | wuf v w o => exact congrArg Host.Outcome.next (perform_error hs (if_pos ho))
  | wsf v w o => exact congrArg Host.Outcome.next (perform_error hs (if_pos ho))
  | new op => exact absurd rfl hd
  | instr i => exact absurd rfl hd

/-- A command performed on a live state ends in `OPEN` or `FAULT`. -/
theorem execCommand_live_ph {c : Command} {s t : State} (hs : s.Live) (hc : execCommand c s = .next t) :
    t.ph = .opened ∨ t.ph = .fault := by
  rcases execCommand_cases c s with ⟨hf, -⟩ | ⟨-, w, he⟩ | ⟨-, k, he⟩
  · exact absurd hf hs
  · rw [he] at hc
    cases hc
    exact .inl rfl
  · rw [he] at hc
    cases hc
    exact .inr rfl

/-- `FAULT` is absorbing for commands (R179). -/
theorem execCommand_fault {c : Command} {s : State} (hs : s.ph = .fault) : execCommand c s = .next s := by
  obtain ⟨effect, -, he⟩ := execCommand_eq_perform c s
  rw [he, perform_fault hs]

/-! ### An encoder command on a live state -/

/-- The branch family: the word of layout BR, or the cause its displacement raises (R123, R124, R126). -/
theorem branch_eq_wordBR (aa lk : Bool) (form : BranchForm) (s : State) :
    branch params aa lk form s = (formRaises form).elim (.ok (s.openWith (wordBR aa lk form))) .error := by
  obtain ⟨o, ho, ⟨ha, hr⟩ | ⟨ha, hb, hr⟩ | ⟨ha, hb, hr⟩⟩ := formRaises_cases form
  · rw [branch_eq_disp, ho, hr]
    simp [branchDisp_eq, ha]
  · rw [branch_eq_disp, ho, hr]
    simp only [branchDisp_eq, ha, hb]
    rfl
  · have hli : liField form = (o.toInt / 4 % 16777216).toNat := by
      rw [liField, ho]
      rfl
    rw [branch_eq_disp, ho, hr, wordBR_eq, hli]
    simp only [branchDisp_eq, ha, hb]
    rfl

/-- The immediate encoders: the word of layout IMM, or `FIT` (R140, R144). -/
theorem immForm_eq_wordIMM (op : Opcode) (a b i : Operand) (s : State) :
    immForm params op a b i s = (fitUnless (regFits a && regFits b && immFits i)).elim
      (.ok (s.openWith (wordIMM (opcodeVal params op) a b i))) .error := by
  have hfits : (regFits a && regFits b && immFits i) = true ↔ a.toNat < 32 ∧ b.toNat < 32 ∧ i.toNat < 65536 := by
    rw [Bool.and_eq_true, Bool.and_eq_true, regFits_iff, regFits_iff, immFits_iff, and_assoc]
  rw [immForm_eq, wordIMM_eq, fitUnless]
  simp only [hfits]
  split <;> rfl

/-- The move to a special register: the word of layout SPR, or `FIT` (R146). -/
theorem moveToSpr_eq_word (r id : Operand) (s : State) :
    moveToSpr params r id s =
      (fitUnless (regFits r && sprFits id)).elim (.ok (s.openWith (Instr.mtspr r id).word)) .error := by
  have hfits : (regFits r && sprFits id) = true ↔ r.toNat < 32 ∧ id.toNat < 1024 := by
    rw [Bool.and_eq_true, regFits_iff, sprFits_iff]
  rw [moveToSpr_eq, word_mtspr_eq, fitUnless]
  simp only [hfits]
  split <;> rfl

/-- Register 0 always fits, so a derived encoder's constant register raises nothing (R160). -/
theorem regFits_zero : regFits 0 = true := by decide

/-- An effect that opens a word unless a cause is raised, performed on a live state. -/
theorem perform_of_raises {effect : State → Except Cause State} {s : State} {raised : Option Cause} {w : Word}
    (hs : s.Live) (h : effect s = raised.elim (.ok (s.openWith w)) .error) :
    perform effect s = raised.elim (s.openWith w) s.raise := by
  cases raised with
  | none => exact perform_ok hs h
  | some c => exact perform_error hs h

/-- Everything an encoder command does on a live state: it opens its layout's word, or takes the fault its operands
raise (R81, R171, R178). -/
theorem exec_live (i : Instr) {s : State} (hs : s.Live) :
    exec i s = .next (i.raises.elim (s.openWith i.word) s.raise) := by
  have himm (op : Opcode) (a b imm : Operand) := perform_of_raises hs (immForm_eq_wordIMM op a b imm s)
  have hbranch (aa lk : Bool) (form : BranchForm) := perform_of_raises hs (branch_eq_wordBR aa lk form s)
  cases i with
  | b form => exact congrArg Host.Outcome.next (hbranch false false form)
  | ba form => exact congrArg Host.Outcome.next (hbranch true false form)
  | bl form => exact congrArg Host.Outcome.next (hbranch false true form)
  | bla form => exact congrArg Host.Outcome.next (hbranch true true form)
  | addi a b imm => exact congrArg Host.Outcome.next (himm .addImmediate a b imm)
  | addis a b imm => exact congrArg Host.Outcome.next (himm .addImmediateShifted a b imm)
  | ori a b imm => exact congrArg Host.Outcome.next (himm .orImmediate a b imm)
  | mtspr r id => exact congrArg Host.Outcome.next (perform_of_raises hs (moveToSpr_eq_word r id s))
  | li a imm =>
    have h := himm .addImmediate a 0 imm
    rw [regFits_zero, Bool.and_true] at h
    exact congrArg Host.Outcome.next h
  | lis a imm =>
    have h := himm .addImmediateShifted a 0 imm
    rw [regFits_zero, Bool.and_true] at h
    exact congrArg Host.Outcome.next h
  | nop => exact congrArg Host.Outcome.next (himm .orImmediate 0 0 0)
  | bctr => exact congrArg Host.Outcome.next (perform_ok hs (word_bctr_eq ▸ branchCtr_eq s))

/-- An encoder command that does not fault has built its layout's word. -/
theorem exec_next_of_not_fault {i : Instr} {s t : State} (hs : s.Live) (he : exec i s = .next t) (ht : t.ph ≠ .fault) :
    t = s.openWith i.word := by
  rw [exec_live i hs] at he
  cases hr : i.raises with
  | none =>
    rw [hr] at he
    cases he
    rfl
  | some c =>
    rw [hr] at he
    cases he
    exact absurd rfl ht

/-- `NEW` on a live state: the opcode's six bits and zeros (R101). -/
theorem execCommand_new_live (op : Opcode) {s : State} (hs : s.Live) :
    execCommand (.new op) s = .next (s.openWith (BitVec.ofNat 32 (opcodeVal params op * 67108864))) :=
  congrArg Host.Outcome.next (perform_ok hs (congrArg Except.ok (newStep_eq op s)))

/-! ### The outputs (R25) -/

theorem State.bytesOut_of_opened (s : State) (h : s.ph = .opened) : s.bytesOut = some (toBytes s.w) := by
  rw [State.bytesOut, s.wordOut_of_opened h, Option.map_some]

theorem State.bytesOut_of_not_opened (s : State) (h : s.ph ≠ .opened) : s.bytesOut = none := by
  rw [State.bytesOut, s.wordOut_of_not_opened h, Option.map_none]

/-! ### Several instances (R33) -/

theorem stepInstance_of_next {k : Nat} {ss : List State} {s t : State} (hk : ss[k]? = some s) (hs : step s = .next t) :
    stepInstance k ss = .next (ss.set k t) := by
  simp only [stepInstance, hk, hs]

theorem stepInstance_of_absent {k : Nat} {ss : List State} (hk : ss[k]? = none) : stepInstance k ss = .next ss := by
  simp only [stepInstance, hk]

/-- Everything an answered step of one among several can be: the one named is not there, or its state alone is replaced by its
own next state. -/
theorem stepInstance_next_cases {k : Nat} {ss ts : List State} (h : stepInstance k ss = .next ts) :
    (ss[k]? = none ∧ ts = ss) ∨ ∃ s t, ss[k]? = some s ∧ step s = .next t ∧ ts = ss.set k t := by
  cases hk : ss[k]? with
  | none =>
    rw [stepInstance_of_absent hk] at h
    cases h
    exact .inl ⟨rfl, rfl⟩
  | some s =>
    cases hs : step s with
    | next t =>
      rw [stepInstance_of_next hk hs] at h
      cases h
      exact .inr ⟨s, t, rfl, hs, rfl⟩
    | fault r => simp [stepInstance, hk, hs] at h
    | refused r => simp [stepInstance, hk, hs] at h

theorem stepInstance_getElem?_of_ne {k j : Nat} {ss ts : List State} (h : stepInstance k ss = .next ts) (hj : j ≠ k) :
    ts[j]? = ss[j]? := by
  rcases stepInstance_next_cases h with ⟨-, rfl⟩ | ⟨s, t, -, -, rfl⟩
  · rfl
  · exact List.getElem?_set_ne hj.symm

/-- Replacing another's state first changes nothing of a step. -/
theorem stepInstance_set_of_ne {k m : Nat} {ss ts : List State} (hne : k ≠ m) (u : State)
    (h : stepInstance k ss = .next ts) : stepInstance k (ss.set m u) = .next (ts.set m u) := by
  have hk : (ss.set m u)[k]? = ss[k]? := List.getElem?_set_ne hne.symm
  rcases stepInstance_next_cases h with ⟨hnone, rfl⟩ | ⟨s, t, hsome, hs, rfl⟩
  · exact stepInstance_of_absent (hk.trans hnone)
  · rw [stepInstance_of_next (hk.trans hsome) hs, List.set_comm _ _ hne.symm]

/-- Steps of two instances, one after the other, in either order. -/
theorem stepInstance_comm {k m : Nat} {ss ts us : List State} (hne : k ≠ m) (hk : stepInstance k ss = .next ts)
    (hm : stepInstance m ts = .next us) : ∃ vs, stepInstance m ss = .next vs ∧ stepInstance k vs = .next us := by
  have hsame : ts[m]? = ss[m]? := stepInstance_getElem?_of_ne hk hne.symm
  rcases stepInstance_next_cases hm with ⟨hnone, rfl⟩ | ⟨s, u, hsome, hs, rfl⟩
  · exact ⟨ss, stepInstance_of_absent (hsame.symm.trans hnone), hk⟩
  · exact ⟨ss.set m u, stepInstance_of_next (hsame.symm.trans hsome) hs, stepInstance_set_of_ne hne u hk⟩

end Sys2Proof.Machine

namespace Sys2Proof

open Machine

/-- Settles O4: a step is no event, a reset, or a command, which opens a word or raises a cause; each keeps the
invariant. -/
theorem stepKeepsInvariant : Obligations.StepKeepsInvariant := fun _ _ => step_keeps_inv

/-- Settles O3: the invariant does not read the events to come. -/
theorem invariantAtReset : Obligations.InvariantAtReset := fun rs => (State.inv_withRequests _ rs).2 State.inv_reset

/-- Settles O5: a command in `FAULT` changes nothing, on a live state it ends in `OPEN` or `FAULT`, and a field write
in `IDLE` raises `ORDER`. -/
theorem phaseTransitions : Obligations.PhaseTransitions := by
  intro c s t hc
  refine ⟨fun hf => ?_, fun ho => ?_, fun hi => ?_, fun hi hd => ?_⟩
  · rw [execCommand_fault hf] at hc
    cases hc
    exact hf
  · exact execCommand_live_ph (by simp [ho]) hc
  · exact execCommand_live_ph (by simp [hi]) hc
  · rw [execCommand_deposit_order hd (by simp [hi]) (by simp [hi])] at hc
    cases hc
    rfl

/-- Settles O34: the outputs read the phase, and an encoder command that does not fault has opened its layout's word. -/
theorem outputsByPhase : Obligations.OutputsByPhase := by
  refine ⟨fun s => ⟨s.wordValid_iff, s.faultOut_iff, rfl, fun ho => ?_, fun hn => ?_⟩, fun i s t hs he ht => ?_⟩
  · exact ⟨s.wordOut_of_opened ho, s.bytesOut_of_opened ho⟩
  · exact ⟨s.wordOut_of_not_opened hn, s.bytesOut_of_not_opened hn⟩
  · rw [exec_next_of_not_fault hs he ht]
    exact State.wordOut_of_opened _ rfl

/-- Settles O48: a step of one among several replaces that one's state alone, and replacements at two places commute. -/
theorem instancesIndependent : Obligations.InstancesIndependent :=
  ⟨fun _ _ _ _ => stepInstance_of_next, fun _ _ _ _ => stepInstance_getElem?_of_ne,
    fun _ _ _ _ _ => stepInstance_comm⟩

/-- Settles O1: the reset values, the outputs of a state in `IDLE`, and `NEW(BRANCH)` on it, whose word is 18 in the top
six bits. -/
theorem resetState : Obligations.ResetState := by
  have hlive : State.reset.Live := by decide
  have hidle : State.reset.ph ≠ .opened := by decide
  refine ⟨rfl, rfl, rfl, rfl, rfl, rfl, State.wordOut_of_not_opened _ hidle, State.bytesOut_of_not_opened _ hidle,
    _, execCommand_new_live .branch hlive, ?_⟩
  rw [State.wordOut_of_opened _ rfl, State.openWith_w, opcodeVal_branch]

end Sys2Proof

/-! PROOF. The byte image of a word and the event a step takes; and from these the obligations on the byte order (R42) and
on the step (R48, R185). -/

namespace Sys2Proof.Machine

/-! ### The byte image (R42) -/

/-- A byte cut out by its lowest bit is the eight-bit field that ends there: the two numberings of R9. -/
theorem extractLsb'_eq_field (w : Word) (offset : Nat) :
    w.extractLsb' (32 - offset - 8) 8 = BitVec.ofNat 8 (field w offset 8) := by
  apply BitVec.eq_of_toNat_eq
  rw [BitVec.extractLsb'_toNat, BitVec.toNat_ofNat, field, zext, Nat.mod_mod]

theorem toBytes_eq_fields (w : Word) :
    toBytes w = [BitVec.ofNat 8 (field w 0 8), BitVec.ofNat 8 (field w 8 8), BitVec.ofNat 8 (field w 16 8),
      BitVec.ofNat 8 (field w 24 8)] := by
  simp only [toBytes, ← extractLsb'_eq_field, Nat.reduceSub]

/-- `ofBytes` is a left inverse of the byte image. -/
theorem toBytes_injective : Function.Injective toBytes := by
  intro v w h
  simp only [toBytes, List.cons.injEq, and_true] at h
  obtain ⟨h0, h1, h2, h3⟩ := h
  rw [← ofBytes_toBytes v, h0, h1, h2, h3, ofBytes_toBytes]

/-! ### The event a step takes (R48, R185) -/

/-- The rule `step_withRequests_command`, read on a state whose first event is known. -/
theorem step_of_command {s : State} {c : Command} {rest : List Request} (h : s.requests = .command c :: rest) :
    step s = execCommand c (s.withRequests rest) :=
  calc step s = step (s.withRequests s.requests) := rfl
    _ = step (s.withRequests (.command c :: rest)) := by rw [h]
    _ = execCommand c (s.withRequests rest) := step_withRequests_command s c rest

theorem step_of_no_request {s : State} (h : s.requests = []) : step s = .next s := by
  simp only [step, takeRequest, h]

/-- Performing an encoder command is its meaning (R81). -/
theorem execCommand_instr (i : Instr) (s : State) : execCommand (.instr i) s = exec i s := rfl

end Sys2Proof.Machine

namespace Sys2Proof

open Machine

/-- Settles O35: each byte cut out is the field at its place, and the word is put together again from its bytes. -/
theorem bytesBigEndian : Obligations.BytesBigEndian :=
  fun w => ⟨toBytes_eq_fields w, fun _ h => toBytes_injective h⟩

/-- Settles O44: a step performs the command presented first, by its meaning if it is an encoder's, and stays where it is when
nothing is presented. -/
theorem stepTakesFirstRequest : Obligations.StepTakesFirstRequest :=
  ⟨fun s i rest h => (step_of_command h).trans (execCommand_instr i (s.withRequests rest)),
    fun _ _ _ => step_of_command, fun _ => step_of_no_request⟩

end Sys2Proof

/-! PROOF. Layouts as positional numbers: the fields of an assembled word, and the words a mask and match allow. From them,
when each encoder command has a given word, in terms of the word's fields; and from that the obligations on the encoding. -/

namespace Sys2Proof

open Machine

/-! ### Words of a tiling layout (R61) -/

/-- The number of the word a layout's values make. -/
def layoutNat (l : List FieldDesc) (values : List Nat) : Nat :=
  (List.zipWith (fun f v => v * 2 ^ (32 - f.offset - f.width)) l values).sum

theorem assemble_eq_ofNat (l : List FieldDesc) (values : List Nat) :
    assemble l values = BitVec.ofNat 32 (layoutNat l values) := rfl

@[simp] theorem layoutNat_cons (f : FieldDesc) (l : List FieldDesc) (v : Nat) (vs : List Nat) :
    layoutNat (f :: l) (v :: vs) = v * 2 ^ (32 - f.offset - f.width) + layoutNat l vs := by
  simp [layoutNat]

theorem tiles_nil {p : Nat} : tiles p [] = true ↔ p = 32 := by simp [tiles]

theorem tiles_cons {p : Nat} {f : FieldDesc} {l : List FieldDesc} :
    tiles p (f :: l) = true ↔ f.offset = p ∧ tiles (p + f.width) l = true := by simp [tiles]

theorem tiles_le {p : Nat} {l : List FieldDesc} (h : tiles p l = true) : p ≤ 32 := by
  induction l generalizing p with
  | nil => exact (tiles_nil.1 h).le
  | cons f l ih => exact (Nat.le_add_right _ _).trans (ih (tiles_cons.1 h).2)

/-- Splitting a number at a binary place: the upper and the lower part are free of each other. -/
theorem mul_two_pow_add_inj {q a b r t : Nat} (hr : r < 2 ^ q) (ht : t < 2 ^ q) :
    a * 2 ^ q + r = b * 2 ^ q + t ↔ a = b ∧ r = t := by
  refine ⟨fun h => ?_, fun ⟨hab, hrt⟩ => by rw [hab, hrt]⟩
  have hdiv := congrArg (· / 2 ^ q) h
  have hmod := congrArg (· % 2 ^ q) h
  simp only [Nat.mul_comm _ (2 ^ q), Nat.mul_add_div (Nat.two_pow_pos q),
    Nat.div_eq_of_lt hr, Nat.div_eq_of_lt ht, Nat.mul_add_mod, Nat.mod_eq_of_lt hr, Nat.mod_eq_of_lt ht] at hdiv hmod
  exact ⟨hdiv, hmod⟩

theorem mul_two_pow_add_lt {k q v r : Nat} (hv : v < 2 ^ k) (hr : r < 2 ^ q) : v * 2 ^ q + r < 2 ^ (k + q) := by
  calc v * 2 ^ q + r < (v + 1) * 2 ^ q := by rw [Nat.add_mul]; omega
    _ ≤ 2 ^ k * 2 ^ q := Nat.mul_le_mul_right _ hv
    _ = 2 ^ (k + q) := (Nat.pow_add 2 k q).symm

/-- Values that fit their fields fill no more than the bits from `p` on. -/
theorem layoutNat_lt {p : Nat} {l : List FieldDesc} {vs : List Nat} (ht : tiles p l = true)
    (hv : List.Forall₂ (fun f v => v < 2 ^ f.width) l vs) : layoutNat l vs < 2 ^ (32 - p) := by
  induction hv generalizing p with
  | nil => exact Nat.two_pow_pos _
  | @cons f v l vs hv _ ih =>
    obtain ⟨rfl, htl⟩ := tiles_cons.1 ht
    have hle := tiles_le htl
    have h := mul_two_pow_add_lt hv (ih htl)
    rwa [layoutNat_cons, Nat.sub_sub, show 32 - f.offset = f.width + (32 - (f.offset + f.width)) by omega]

/-- Reading the fields of the last `32 - p` bits of a number undoes putting them there. -/
theorem mod_eq_layoutNat_iff {p : Nat} {l : List FieldDesc} {vs : List Nat} (n : Nat) (ht : tiles p l = true)
    (hv : List.Forall₂ (fun f v => v < 2 ^ f.width) l vs) :
    n % 2 ^ (32 - p) = layoutNat l vs ↔
      List.Forall₂ (fun f v => n / 2 ^ (32 - f.offset - f.width) % 2 ^ f.width = v) l vs := by
  induction hv generalizing p with
  | nil => simp [tiles_nil.1 ht, layoutNat, Nat.mod_one]
  | @cons f v l vs hv hvs ih =>
    obtain ⟨rfl, htl⟩ := tiles_cons.1 ht
    have hle := tiles_le htl
    have hsplit : n % 2 ^ (32 - f.offset) = n / 2 ^ (32 - (f.offset + f.width)) % 2 ^ f.width *
        2 ^ (32 - (f.offset + f.width)) + n % 2 ^ (32 - (f.offset + f.width)) := by
      rw [show 32 - f.offset = (32 - (f.offset + f.width)) + f.width by omega, Nat.pow_add, Nat.mod_mul, Nat.add_comm,
        Nat.mul_comm]
    rw [layoutNat_cons, List.forall₂_cons, Nat.sub_sub, hsplit,
      mul_two_pow_add_inj (Nat.mod_lt _ (Nat.two_pow_pos _)) (layoutNat_lt htl hvs), ih htl]

/-- A word is put together from values that fit exactly when these are its fields (R61). -/
theorem eq_assemble_iff {l : List FieldDesc} (ht : tiles 0 l = true) (w : Word) (vs : List Nat) :
    (List.Forall₂ (fun f v => v < 2 ^ f.width) l vs ∧ assemble l vs = w) ↔
      List.Forall₂ (fun f v => field w f.offset f.width = v) l vs := by
  have hiff (hv : List.Forall₂ (fun f v => v < 2 ^ f.width) l vs) :
      assemble l vs = w ↔ List.Forall₂ (fun f v => field w f.offset f.width = v) l vs := by
    have hlt : layoutNat l vs < 2 ^ 32 := layoutNat_lt ht hv
    simp only [field_eq]
    rw [← mod_eq_layoutNat_iff w.toNat ht hv, assemble_eq_ofNat, ← BitVec.toNat_inj, BitVec.toNat_ofNat,
      Nat.mod_eq_of_lt hlt, Nat.mod_eq_of_lt w.isLt, eq_comm]
  refine ⟨fun ⟨hv, hw⟩ => (hiff hv).1 hw, fun h => ?_⟩
  have hv : List.Forall₂ (fun f v => v < 2 ^ f.width) l vs := h.imp fun _ _ hf => hf ▸ field_lt _ _ _
  exact ⟨hv, (hiff hv).2 h⟩

/-! ### The words of a row (R74, R75) -/

/-- What a row's mask leaves of a field. -/
def maskValue (f : FieldDesc) (v : Option Nat) : Nat := if v.isSome then 2 ^ f.width - 1 else 0

theorem maskValue_lt (f : FieldDesc) (v : Option Nat) : maskValue f v < 2 ^ f.width := by
  have hpos := Nat.two_pow_pos f.width
  unfold maskValue
  split <;> omega

theorem and_maskValue_eq_iff (n : Nat) (f : FieldDesc) (v : Option Nat) :
    n &&& maskValue f v = v.getD 0 ↔ ∀ x ∈ v, n % 2 ^ f.width = x := by
  cases v with
  | none => simp [maskValue]
  | some x => simp [maskValue, Nat.and_two_pow_sub_one_eq_mod]

/-- A conjunction splits at a binary place. -/
theorem and_mul_two_pow_add {q m M : Nat} (n : Nat) (hM : M < 2 ^ q) :
    n &&& (m * 2 ^ q + M) = (n / 2 ^ q &&& m) * 2 ^ q + (n &&& M) := by
  have hdiv : (n &&& (m * 2 ^ q + M)) / 2 ^ q = n / 2 ^ q &&& m := by
    rw [Nat.and_div_two_pow, Nat.mul_comm, Nat.mul_add_div (Nat.two_pow_pos q), Nat.div_eq_of_lt hM, Nat.add_zero]
  have hmod : (n &&& (m * 2 ^ q + M)) % 2 ^ q = n &&& M := by
    rw [Nat.and_mod_two_pow, Nat.mul_comm, Nat.mul_add_mod, ← Nat.and_mod_two_pow,
      Nat.mod_eq_of_lt (Nat.lt_of_le_of_lt Nat.and_le_right hM)]
  rw [← hdiv, ← hmod, Nat.div_add_mod']

theorem forall₂_maskValue_lt {R : FieldDesc → Option Nat → Prop} {l : List FieldDesc} {fixed : List (Option Nat)}
    (h : List.Forall₂ R l fixed) :
    List.Forall₂ (fun f v => v < 2 ^ f.width) l (List.zipWith maskValue l fixed) := by
  induction h with
  | nil => exact .nil
  | cons _ _ ih => exact .cons (maskValue_lt _ _) ih

/-- A number agrees with fixed values under their mask exactly when its fields of fixed value hold them. -/
theorem and_layoutNat_eq_iff {p : Nat} {l : List FieldDesc} {fixed : List (Option Nat)} (n : Nat)
    (ht : tiles p l = true) (hv : List.Forall₂ (fun f v => v.getD 0 < 2 ^ f.width) l fixed) :
    n &&& layoutNat l (List.zipWith maskValue l fixed) = layoutNat l (fixed.map fun v => v.getD 0) ↔
      List.Forall₂ (fun f v => ∀ x ∈ v, n / 2 ^ (32 - f.offset - f.width) % 2 ^ f.width = x) l fixed := by
  induction hv generalizing p with
  | nil => simp [layoutNat]
  | @cons f v l vs _ hvs ih =>
    obtain ⟨rfl, htl⟩ := tiles_cons.1 ht
    have hmask := layoutNat_lt htl (forall₂_maskValue_lt hvs)
    have hfixed := layoutNat_lt htl (List.forall₂_map_right_iff.2 hvs)
    rw [List.zipWith_cons_cons, List.map_cons, layoutNat_cons, layoutNat_cons, List.forall₂_cons, Nat.sub_sub,
      and_mul_two_pow_add n hmask, mul_two_pow_add_inj (Nat.lt_of_le_of_lt Nat.and_le_right hmask) hfixed,
      and_maskValue_eq_iff, ih htl]

/-- The words a row's mask and match allow are those whose fields of fixed value hold them (R74, R75). -/
theorem and_mask_eq_pattern_iff {l : List FieldDesc} {fixed : List (Option Nat)} (mnemonic : String) (w : Word)
    (ht : tiles 0 l = true) (hv : List.Forall₂ (fun f v => v.getD 0 < 2 ^ f.width) l fixed) :
    w &&& (rowOf mnemonic l fixed).mask = (rowOf mnemonic l fixed).pattern ↔
      List.Forall₂ (fun f v => ∀ x ∈ v, field w f.offset f.width = x) l fixed := by
  have hmask : (rowOf mnemonic l fixed).mask = BitVec.ofNat 32 (layoutNat l (List.zipWith maskValue l fixed)) := rfl
  have hpattern : (rowOf mnemonic l fixed).pattern = BitVec.ofNat 32 (layoutNat l (fixed.map fun v => v.getD 0)) := rfl
  have hmasklt : layoutNat l (List.zipWith maskValue l fixed) < 2 ^ 32 := layoutNat_lt ht (forall₂_maskValue_lt hv)
  have hpatternlt : layoutNat l (fixed.map fun v => v.getD 0) < 2 ^ 32 :=
    layoutNat_lt ht (List.forall₂_map_right_iff.2 hv)
  simp only [field_eq]
  rw [← and_layoutNat_eq_iff w.toNat ht hv, hmask, hpattern, ← BitVec.toNat_inj, BitVec.toNat_and, BitVec.toNat_ofNat,
    BitVec.toNat_ofNat, Nat.mod_eq_of_lt hmasklt, Nat.mod_eq_of_lt hpatternlt]

/-! ### Which words each command has, field by field (R62 to R65, R69 to R72) -/

theorem tiles_layoutBR : tiles 0 layoutBR = true := by decide
theorem tiles_layoutIMM : tiles 0 layoutIMM = true := by decide
theorem tiles_layoutSPR : tiles 0 layoutSPR = true := by decide

theorem assemble_BR_eq_iff (op li aa lk : Nat) (w : Word) :
    ((op < 64 ∧ li < 16777216 ∧ aa < 2 ∧ lk < 2) ∧ assemble layoutBR [op, li, aa, lk] = w) ↔
      field w 0 6 = op ∧ field w 6 24 = li ∧ field w 30 1 = aa ∧ field w 31 1 = lk := by
  refine .trans (and_congr_left' ?_) ((eq_assemble_iff tiles_layoutBR w _).trans ?_) <;> simp [layoutBR]

theorem assemble_IMM_eq_iff (op a b i : Nat) (w : Word) :
    ((op < 64 ∧ a < 32 ∧ b < 32 ∧ i < 65536) ∧ assemble layoutIMM [op, a, b, i] = w) ↔
      field w 0 6 = op ∧ field w 6 5 = a ∧ field w 11 5 = b ∧ field w 16 16 = i := by
  refine .trans (and_congr_left' ?_) ((eq_assemble_iff tiles_layoutIMM w _).trans ?_) <;> simp [layoutIMM]

theorem assemble_SPR_eq_iff (op r p xo rsv : Nat) (w : Word) :
    ((op < 64 ∧ r < 32 ∧ p < 1024 ∧ xo < 1024 ∧ rsv < 2) ∧ assemble layoutSPR [op, r, p, xo, rsv] = w) ↔
      field w 0 6 = op ∧ field w 6 5 = r ∧ field w 11 10 = p ∧ field w 21 10 = xo ∧ field w 31 1 = rsv := by
  refine .trans (and_congr_left' ?_) ((eq_assemble_iff tiles_layoutSPR w _).trans ?_) <;> simp [layoutSPR]

/-- The fields of the word of an immediate encoder with accepted operands (R63, R70, R72). -/
structure ImmFields (w : Word) (opc : Nat) (a b i : Operand) : Prop where
  opcd : field w 0 6 = opc
  rga : field w 6 5 = a.toNat
  rgb : field w 11 5 = b.toNat
  imm : field w 16 16 = i.toNat

/-- The fields of the word of a branch with an accepted displacement: `LI` is the displacement in words, and never the
value below the symmetric bound (R62, R69, R75). -/
structure BranchFields (w : Word) (aa lk : Bool) (form : BranchForm) : Prop where
  opcd : field w 0 6 = 18
  offset : formOffset params form = .ok (4 * sext 24 (field w 6 24))
  li : field w 6 24 ≠ 0x800000
  aa : field w 30 1 = flagBit aa
  lk : field w 31 1 = flagBit lk

/-- The fields of the word of a move to a special register with accepted operands (R64, R71). -/
structure SprFields (w : Word) (r id : Operand) : Prop where
  opcd : field w 0 6 = 31
  rs : field w 6 5 = r.toNat
  idFits : id.toNat < 1024
  sprf : field w 11 10 = swap10 id.toNat
  xo : field w 21 10 = 467
  rsv : field w 31 1 = 0

/-- A command that checks three operands and puts them into layout IMM has a word exactly with these fields. -/
theorem encode_iff_immFields {j : Instr} {opc : Nat} {a b i : Operand} {w : Word} (hopc : opc < 64)
    (hraises : j.raises = fitUnless (regFits a && regFits b && immFits i)) (hword : j.word = wordIMM opc a b i) :
    encode j = some w ↔ ImmFields w opc a b i := by
  have h := assemble_IMM_eq_iff opc a.toNat b.toNat i.toNat w
  rw [encode_eq_some, Instr.wellFormed, hraises, hword, fitUnless_isNone]
  simp only [Bool.and_eq_true, regFits_iff, immFits_iff]
  refine ⟨fun ⟨⟨⟨ha, hb⟩, hi⟩, hw⟩ => ?_, fun hf => ?_⟩
  · obtain ⟨h0, h1, h2, h3⟩ := h.1 ⟨⟨hopc, ha, hb, hi⟩, hw⟩
    exact ⟨h0, h1, h2, h3⟩
  · obtain ⟨⟨-, ha, hb, hi⟩, hw⟩ := h.2 ⟨hf.opcd, hf.rga, hf.rgb, hf.imm⟩
    exact ⟨⟨⟨ha, hb⟩, hi⟩, hw⟩

theorem encode_addi_iff {a b i : Operand} {w : Word} : encode (.addi a b i) = some w ↔ ImmFields w 14 a b i :=
  encode_iff_immFields (by decide) rfl rfl

theorem encode_addis_iff {a b i : Operand} {w : Word} : encode (.addis a b i) = some w ↔ ImmFields w 15 a b i :=
  encode_iff_immFields (by decide) rfl rfl

theorem encode_ori_iff {a b i : Operand} {w : Word} : encode (.ori a b i) = some w ↔ ImmFields w 24 a b i :=
  encode_iff_immFields (by decide) rfl rfl

/-- The derived encoders have the words of the general ones with their constant operands (R161 to R163). -/
theorem encode_li (a i : Operand) : encode (.li a i) = encode (.addi a 0 i) := by
  simp only [encode, Instr.wellFormed, Instr.raises, regFits_zero, Bool.and_true]
  rfl

theorem encode_lis (a i : Operand) : encode (.lis a i) = encode (.addis a 0 i) := by
  simp only [encode, Instr.wellFormed, Instr.raises, regFits_zero, Bool.and_true]
  rfl

theorem encode_nop : encode .nop = encode (.ori 0 0 0) := rfl

theorem encode_bctr_iff {w : Word} : encode .bctr = some w ↔ w = 0x4E800420#32 := by
  rw [encode_eq_some, word_bctr_eq]
  exact ⟨fun ⟨_, hw⟩ => hw.symm, fun hw => ⟨rfl, hw.symm⟩⟩

theorem encode_mtspr_iff {r id : Operand} {w : Word} : encode (.mtspr r id) = some w ↔ SprFields w r id := by
  have h := assemble_SPR_eq_iff 31 r.toNat (swap10 id.toNat) 467 0 w
  rw [encode_eq_some, Instr.wellFormed, Instr.raises, fitUnless_isNone, Bool.and_eq_true, regFits_iff, sprFits_iff]
  refine ⟨fun ⟨⟨hr, hid⟩, hw⟩ => ?_, fun hf => ?_⟩
  · obtain ⟨h0, h1, h2, h3, h4⟩ := h.1 ⟨⟨by decide, hr, swap10_lt _ hid, by decide, by decide⟩, hw⟩
    exact ⟨h0, h1, hid, h2, h3, h4⟩
  · obtain ⟨⟨-, hr, -⟩, hw⟩ := h.2 ⟨hf.opcd, hf.rs, hf.sprf, hf.xo, hf.rsv⟩
    exact ⟨⟨hr, hf.idFits⟩, hw⟩

/-! ### `LI` and the displacement (R69) -/

/-- The two's-complement reading of a 24-bit field in numbers. -/
theorem sext24_field (w : Word) (o : Nat) : sext 24 (field w o 24) =
    if field w o 24 < 8388608 then (field w o 24 : Int) else (field w o 24 : Int) - 16777216 := by
  have hz : zext 24 (field w o 24) = field w o 24 := Nat.mod_eq_of_lt (field_lt w o 24)
  rw [sext, hz]
  norm_num

/-- A byte offset is accepted and its quotient stands in `LI` exactly when `LI` reads back to it and is not the one value
below the symmetric bound (R69, R124). -/
theorem li_reads_back_iff (d : Int) (w : Word) :
    ((d % 4 = 0 ∧ -8388607 ≤ d / 4 ∧ d / 4 ≤ 8388607) ∧ field w 6 24 = (d / 4 % 16777216).toNat) ↔
      d = 4 * sext 24 (field w 6 24) ∧ field w 6 24 ≠ 0x800000 := by
  have hlt : field w 6 24 < 16777216 := field_lt w 6 24
  rw [sext24_field]
  split <;> omega

theorem formRaises_none_and_liField_iff (form : BranchForm) (w : Word) :
    (formRaises form = none ∧ field w 6 24 = liField form) ↔
      formOffset params form = .ok (4 * sext 24 (field w 6 24)) ∧ field w 6 24 ≠ 0x800000 := by
  obtain ⟨o, ho, hcases⟩ := formRaises_cases form
  have hli : liField form = (o.toInt / 4 % 16777216).toNat := by
    rw [liField, ho]
    rfl
  have hnone : formRaises form = none ↔ o.toInt % 4 = 0 ∧ -8388607 ≤ o.toInt / 4 ∧ o.toInt / 4 ≤ 8388607 := by
    rcases hcases with ⟨ha, h⟩ | ⟨-, hr, h⟩ | ⟨ha, hr, h⟩
    · simp [h, ha]
    · simp only [h, hr, and_false, reduceCtorEq]
    · simp only [h, ha, hr, and_true]
  rw [hnone, hli, li_reads_back_iff, ho, Except.ok.injEq]

theorem encode_branch_iff {aa lk : Bool} {form : BranchForm} {w : Word} :
    encode (branchInstr aa lk form) = some w ↔ BranchFields w aa lk form := by
  have hraises : (branchInstr aa lk form).wellFormed = true ↔ formRaises form = none := by
    cases aa <;> cases lk <;> exact Option.isNone_iff_eq_none
  have hword : (branchInstr aa lk form).word = assemble layoutBR [18, liField form, flagBit aa, flagBit lk] := by
    cases aa <;> cases lk <;> rfl
  have h := assemble_BR_eq_iff 18 (liField form) (flagBit aa) (flagBit lk) w
  have hli := formRaises_none_and_liField_iff form w
  rw [encode_eq_some, hraises, hword]
  refine ⟨fun ⟨hr, hw⟩ => ?_, fun hf => ?_⟩
  · obtain ⟨h0, h1, h2, h3⟩ := h.1 ⟨⟨by decide, liField_lt form, flagBit_lt aa, flagBit_lt lk⟩, hw⟩
    obtain ⟨ho, hne⟩ := hli.1 ⟨hr, h1⟩
    exact ⟨h0, ho, hne, h2, h3⟩
  · obtain ⟨hr, h1⟩ := hli.2 ⟨hf.offset, hf.li⟩
    exact ⟨hr, (h.2 ⟨hf.opcd, h1, hf.aa, hf.lk⟩).2⟩

/-! ### The decoder reads the fields back (log entry 9) -/

theorem operandOf_toNat (v : Operand) : operandOf v.toNat = v := by
  rw [operandOf, BitVec.ofNat_toNat, BitVec.setWidth_eq]

theorem toNat_operandOf {n : Nat} (hn : n < 4294967296) : (operandOf n).toNat = n :=
  (BitVec.toNat_ofNat n _).trans (Nat.mod_eq_of_lt hn)

/-- Swapping the halves twice gives the identifier back (R145). -/
theorem swap10_swap10 {n : Nat} (hn : n < 1024) : swap10 (swap10 n) = n := by
  rw [swap10_eq _ (swap10_lt n hn), swap10_eq n hn]
  omega

/-- A field of one bit. -/
theorem field_one (w : Word) (a : Nat) : field w a 1 = flagBit (bitAt w a) := by
  have hflag : flagBit (bitAt w a) = (bitAt w a).toNat := by cases bitAt w a <;> rfl
  rw [hflag, field_eq, bitAt, BitVec.getLsbD, Nat.toNat_testBit, Nat.pow_one, Nat.sub_right_comm]

theorem flagBit_injective : Function.Injective flagBit := by
  intro a b
  cases a <;> cases b <;> decide

theorem canonicalForm_of_formOffset {form : BranchForm} {d : Int} (h : formOffset params form = .ok d) :
    Instr.canonical.canonicalForm form = .disp (BitVec.ofInt _ d) := by
  rw [Instr.canonical.canonicalForm, h]

theorem canonical_branchInstr (aa lk : Bool) (form : BranchForm) :
    (branchInstr aa lk form).canonical = branchInstr aa lk (Instr.canonical.canonicalForm form) := by
  cases aa <;> cases lk <;> rfl

theorem decodeBranch_of_li {w : Word} (h : field w 6 24 ≠ 0x800000) : decodeBranch w =
    .ok (branchInstr (bitAt w 30) (bitAt w 31) (.disp (BitVec.ofInt _ (4 * sext 24 (field w 6 24))))) := by
  have hlt : field w 6 24 < 16777216 := field_lt w 6 24
  have hin : -8388607 ≤ 4 * sext 24 (field w 6 24) / 4 ∧ 4 * sext 24 (field w 6 24) / 4 ≤ 8388607 := by
    rw [sext24_field]
    split <;> omega
  rw [decodeBranch_eq, if_neg (not_not_intro hin)]
  cases bitAt w 30 <;> cases bitAt w 31 <;> rfl

theorem decodeWord_of_branchFields {w : Word} {aa lk : Bool} {form : BranchForm} (h : BranchFields w aa lk form) :
    decodeWord w = .ok (branchInstr aa lk form).canonical := by
  have haa : bitAt w 30 = aa := flagBit_injective ((field_one w 30).symm.trans h.aa)
  have hlk : bitAt w 31 = lk := flagBit_injective ((field_one w 31).symm.trans h.lk)
  rw [decodeWord_eq, if_pos h.opcd, decodeBranch_of_li h.li, haa, hlk, canonical_branchInstr,
    canonicalForm_of_formOffset h.offset]

/-- The decoder on the fields of layout IMM, by the opcode. -/
theorem decodeWord_of_immFields {w : Word} {opc : Nat} {a b i : Operand} (h : ImmFields w opc a b i) :
    (opc = 14 → decodeWord w = .ok (Instr.addi a b i).canonical) ∧
    (opc = 15 → decodeWord w = .ok (Instr.addis a b i).canonical) ∧
    (opc = 24 → decodeWord w = .ok (Instr.ori a b i).canonical) := by
  rw [decodeWord_eq, h.rga, h.rgb, h.imm, operandOf_toNat, operandOf_toNat, operandOf_toNat, h.opcd]
  refine ⟨?_, ?_, ?_⟩ <;> rintro rfl <;> rfl

theorem decodeWord_of_sprFields {w : Word} {r id : Operand} (h : SprFields w r id) :
    decodeWord w = .ok (Instr.mtspr r id).canonical := by
  simp only [decodeWord_eq, decodeSpr_eq, h.opcd, h.rs, h.sprf, h.xo, h.rsv, swap10_swap10 h.idFits, operandOf_toNat]
  rfl

theorem decodeWord_bctr : decodeWord 0x4E800420#32 = .ok .bctr := by decide

/-- The decoder names every command that has a word, in its own spelling. -/
theorem decodeWord_of_encode {i : Instr} {w : Word} (h : encode i = some w) : decodeWord w = .ok i.canonical := by
  cases i with
  | b form => exact decodeWord_of_branchFields (encode_branch_iff (aa := false) (lk := false).1 h)
  | ba form => exact decodeWord_of_branchFields (encode_branch_iff (aa := true) (lk := false).1 h)
  | bl form => exact decodeWord_of_branchFields (encode_branch_iff (aa := false) (lk := true).1 h)
  | bla form => exact decodeWord_of_branchFields (encode_branch_iff (aa := true) (lk := true).1 h)
  | addi a b imm => exact (decodeWord_of_immFields (encode_addi_iff.1 h)).1 rfl
  | addis a b imm => exact (decodeWord_of_immFields (encode_addis_iff.1 h)).2.1 rfl
  | ori a b imm => exact (decodeWord_of_immFields (encode_ori_iff.1 h)).2.2 rfl
  | mtspr r id => exact decodeWord_of_sprFields (encode_mtspr_iff.1 h)
  | li a imm => exact (decodeWord_of_immFields (encode_addi_iff.1 (encode_li a imm ▸ h))).1 rfl
  | lis a imm => exact (decodeWord_of_immFields (encode_addis_iff.1 (encode_lis a imm ▸ h))).2.1 rfl
  | nop => exact (decodeWord_of_immFields (encode_ori_iff.1 (encode_nop ▸ h))).2.2 rfl
  | bctr =>
    rw [encode_bctr_iff.1 h]
    exact decodeWord_bctr

/-! ### Every word that decodes is a command's word -/

/-- The operands that leave a word's fields, layout by layout. -/
theorem immFields_operandOf {w : Word} {opc : Nat} (hop : field w 0 6 = opc) :
    ImmFields w opc (operandOf (field w 6 5)) (operandOf (field w 11 5)) (operandOf (field w 16 16)) := by
  have ha : field w 6 5 < 32 := field_lt w 6 5
  have hb : field w 11 5 < 32 := field_lt w 11 5
  have hi : field w 16 16 < 65536 := field_lt w 16 16
  refine ⟨hop, ?_, ?_, ?_⟩ <;> rw [toNat_operandOf] <;> omega

theorem branchFields_disp {w : Word} {aa lk : Bool} (hop : field w 0 6 = 18) (hli : field w 6 24 ≠ 0x800000)
    (haa : field w 30 1 = flagBit aa) (hlk : field w 31 1 = flagBit lk) :
    BranchFields w aa lk (.disp (BitVec.ofInt _ (4 * sext 24 (field w 6 24)))) := by
  have hlt : field w 6 24 < 16777216 := field_lt w 6 24
  have hback : (BitVec.ofInt params.operandBits (4 * sext 24 (field w 6 24))).toInt = 4 * sext 24 (field w 6 24) := by
    apply operand_toInt_ofInt <;> rw [sext24_field] <;> split <;> omega
  exact ⟨hop, congrArg Except.ok hback, hli, haa, hlk⟩

theorem sprFields_operandOf {w : Word} (hop : field w 0 6 = 31) (hxo : field w 21 10 = 467) (hrsv : field w 31 1 = 0) :
    SprFields w (operandOf (field w 6 5)) (operandOf (swap10 (field w 11 10))) := by
  have hr : field w 6 5 < 32 := field_lt w 6 5
  have hp : field w 11 10 < 1024 := field_lt w 11 10
  have hs := swap10_lt _ hp
  have hid : (operandOf (swap10 (field w 11 10))).toNat = swap10 (field w 11 10) := toNat_operandOf (by omega)
  exact ⟨hop, (toNat_operandOf (by omega)).symm, hid.trans_lt hs, by rw [hid, swap10_swap10 hp], hxo, hrsv⟩

theorem decodeBranch_of_li_eq {w : Word} (h : field w 6 24 = 0x800000) :
    decodeBranch w = .error .displacementNeverEmitted := by
  have hsext : sext 24 0x800000 = -8388608 := by decide
  rw [decodeBranch_eq, h, hsext]
  rfl

/-- A word that decodes is a command's word: that of the general encoder for its opcode, its fields as operands. -/
theorem exists_encode_of_decodeWord {w : Word} {i : Instr} (h : decodeWord w = .ok i) :
    ∃ j : Instr, encode j = some w := by
  by_cases haddi : field w 0 6 = 14
  · exact ⟨_, encode_addi_iff.2 (immFields_operandOf haddi)⟩
  by_cases haddis : field w 0 6 = 15
  · exact ⟨_, encode_addis_iff.2 (immFields_operandOf haddis)⟩
  by_cases hori : field w 0 6 = 24
  · exact ⟨_, encode_ori_iff.2 (immFields_operandOf hori)⟩
  rw [decodeWord_eq, if_neg haddi, if_neg haddis, if_neg hori] at h
  split_ifs at h with hbr hx31 hxl19 hctr
  · have hli : field w 6 24 ≠ 0x800000 := by
      intro hli
      rw [decodeBranch_of_li_eq hli] at h
      cases h
    exact ⟨_, encode_branch_iff.2 (branchFields_disp hbr hli (field_one w 30) (field_one w 31))⟩
  · rw [decodeSpr_eq] at h
    split_ifs at h with hx
    exact ⟨_, encode_mtspr_iff.2 (sprFields_operandOf hx31 hx.1 hx.2)⟩
  · exact ⟨_, encode_bctr_iff.2 hctr⟩

/-! ### The decoder's spelling -/

theorem formOffset_canonicalForm (form : BranchForm) :
    formOffset params (Instr.canonical.canonicalForm form) = formOffset params form := by
  obtain ⟨o, ho⟩ := formOffset_eq form
  rw [canonicalForm_of_formOffset ho, ho, BitVec.ofInt_toInt]
  rfl

theorem BranchFields.canonicalForm {w : Word} {aa lk : Bool} {form : BranchForm} (h : BranchFields w aa lk form) :
    BranchFields w aa lk (Instr.canonical.canonicalForm form) :=
  { h with offset := (formOffset_canonicalForm form).trans h.offset }

/-- The decoder's spelling of a command has the command's word. -/
theorem encode_canonical {i : Instr} {w : Word} (hw : encode i = some w) : encode i.canonical = some w := by
  cases i with
  | b form => exact encode_branch_iff.2 (encode_branch_iff (aa := false) (lk := false).1 hw).canonicalForm
  | ba form => exact encode_branch_iff.2 (encode_branch_iff (aa := true) (lk := false).1 hw).canonicalForm
  | bl form => exact encode_branch_iff.2 (encode_branch_iff (aa := false) (lk := true).1 hw).canonicalForm
  | bla form => exact encode_branch_iff.2 (encode_branch_iff (aa := true) (lk := true).1 hw).canonicalForm
  | addi a b imm =>
    by_cases hb : b = 0
    · subst hb
      exact (encode_li a imm).trans hw
    · rwa [Instr.canonical, if_neg hb]
  | addis a b imm =>
    by_cases hb : b = 0
    · subst hb
      exact (encode_lis a imm).trans hw
    · rwa [Instr.canonical, if_neg hb]
  | ori a b imm =>
    by_cases hz : a = 0 ∧ b = 0 ∧ imm = 0
    · obtain ⟨rfl, rfl, rfl⟩ := hz
      exact encode_nop.trans hw
    · rwa [Instr.canonical, if_neg hz]
  | mtspr | li | lis | nop | bctr => exact hw

/-! ### The words of each row of the opcode table (R75) -/

/-- The fields of fixed value in the words of a command's row, at the spec's values (R74). -/
def Instr.RowFields (w : Word) : Instr → Prop
  | .b _ => field w 0 6 = 18 ∧ field w 30 1 = flagBit false ∧ field w 31 1 = flagBit false
  | .ba _ => field w 0 6 = 18 ∧ field w 30 1 = flagBit true ∧ field w 31 1 = flagBit false
  | .bl _ => field w 0 6 = 18 ∧ field w 30 1 = flagBit false ∧ field w 31 1 = flagBit true
  | .bla _ => field w 0 6 = 18 ∧ field w 30 1 = flagBit true ∧ field w 31 1 = flagBit true
  | .addi _ _ _ => field w 0 6 = 14
  | .addis _ _ _ => field w 0 6 = 15
  | .ori _ _ _ => field w 0 6 = 24
  | .mtspr _ _ => field w 0 6 = 31 ∧ field w 21 10 = 467 ∧ field w 31 1 = 0
  | .li _ _ => field w 0 6 = 14 ∧ field w 11 5 = 0
  | .lis _ _ => field w 0 6 = 15 ∧ field w 11 5 = 0
  | .nop => field w 0 6 = 24 ∧ field w 6 5 = 0 ∧ field w 11 5 = 0 ∧ field w 16 16 = 0
  | .bctr => w = 0x4E800420#32

theorem rowFields_iff (j : Instr) (w : Word) : w &&& j.row.mask = j.row.pattern ↔ j.RowFields w := by
  cases j with
  | b form | ba form | bl form | bla form =>
    refine (and_mask_eq_pattern_iff _ w tiles_layoutBR ?_).trans ?_ <;> simp [layoutBR, Instr.RowFields, flagBit]
  | addi a b i | addis a b i | ori a b i | li a i | lis a i | nop =>
    refine (and_mask_eq_pattern_iff _ w tiles_layoutIMM ?_).trans ?_ <;> simp [layoutIMM, Instr.RowFields]
  | mtspr r id =>
    refine (and_mask_eq_pattern_iff _ w tiles_layoutSPR ?_).trans ?_ <;> simp [layoutSPR, Instr.RowFields]
  | bctr =>
    have hall : (0xFFFFFFFF#32 : Word) = BitVec.allOnes 32 := by decide
    rw [row_eq]
    change w &&& 0xFFFFFFFF#32 = 0x4E800420#32 ↔ w = 0x4E800420#32
    rw [hall, BitVec.and_allOnes]

theorem BranchFields.rowFields {w : Word} {aa lk : Bool} {form : BranchForm} (h : BranchFields w aa lk form) :
    (branchInstr aa lk form).RowFields w := by
  cases aa <;> cases lk <;> exact ⟨h.opcd, h.aa, h.lk⟩

/-- A command's word holds the fixed values of its row. -/
theorem rowFields_of_encode {i : Instr} {w : Word} (h : encode i = some w) : i.RowFields w := by
  cases i with
  | b form => exact (encode_branch_iff (aa := false) (lk := false).1 h).rowFields
  | ba form => exact (encode_branch_iff (aa := true) (lk := false).1 h).rowFields
  | bl form => exact (encode_branch_iff (aa := false) (lk := true).1 h).rowFields
  | bla form => exact (encode_branch_iff (aa := true) (lk := true).1 h).rowFields
  | addi a b imm => exact (encode_addi_iff.1 h).opcd
  | addis a b imm => exact (encode_addis_iff.1 h).opcd
  | ori a b imm => exact (encode_ori_iff.1 h).opcd
  | mtspr r id =>
    have hf := encode_mtspr_iff.1 h
    exact ⟨hf.opcd, hf.xo, hf.rsv⟩
  | li a imm =>
    have hf := encode_addi_iff.1 (encode_li a imm ▸ h)
    exact ⟨hf.opcd, hf.rgb⟩
  | lis a imm =>
    have hf := encode_addis_iff.1 (encode_lis a imm ▸ h)
    exact ⟨hf.opcd, hf.rgb⟩
  | nop =>
    have hf := encode_ori_iff.1 (encode_nop ▸ h)
    exact ⟨hf.opcd, hf.rga, hf.rgb, hf.imm⟩
  | bctr => exact encode_bctr_iff.1 h

theorem exists_branchInstr_of_opcode {i : Instr} (h : i.opcode = .branch) :
    ∃ aa lk form, i = branchInstr aa lk form := by
  cases i with
  | b form => exact ⟨false, false, form, rfl⟩
  | ba form => exact ⟨true, false, form, rfl⟩
  | bl form => exact ⟨false, true, form, rfl⟩
  | bla form => exact ⟨true, true, form, rfl⟩
  | addi | addis | ori | mtspr | li | lis | nop | bctr => cases h

/-- No branch has the word whose `LI` lies below the symmetric bound (R75). -/
theorem li_ne_of_encode {i : Instr} {w : Word} (h : encode i = some w) (hop : i.opcode = .branch) :
    field w 6 24 ≠ 0x800000 := by
  obtain ⟨aa, lk, form, rfl⟩ := exists_branchInstr_of_opcode hop
  exact (encode_branch_iff.1 h).li

/-- A word with a row's fixed values, and an `LI` within the bound, is the word of a command of that row: the one whose
operands are the other fields. -/
theorem exists_encode_of_rowFields {j : Instr} {w : Word} (h : j.RowFields w)
    (hli : j.opcode = .branch → field w 6 24 ≠ 0x800000) : ∃ i : Instr, encode i = some w ∧ i.row = j.row := by
  cases j with
  | b form =>
    obtain ⟨hop, haa, hlk⟩ := h
    exact ⟨_, encode_branch_iff (aa := false) (lk := false).2 (branchFields_disp hop (hli rfl) haa hlk), rfl⟩
  | ba form =>
    obtain ⟨hop, haa, hlk⟩ := h
    exact ⟨_, encode_branch_iff (aa := true) (lk := false).2 (branchFields_disp hop (hli rfl) haa hlk), rfl⟩
  | bl form =>
    obtain ⟨hop, haa, hlk⟩ := h
    exact ⟨_, encode_branch_iff (aa := false) (lk := true).2 (branchFields_disp hop (hli rfl) haa hlk), rfl⟩
  | bla form =>
    obtain ⟨hop, haa, hlk⟩ := h
    exact ⟨_, encode_branch_iff (aa := true) (lk := true).2 (branchFields_disp hop (hli rfl) haa hlk), rfl⟩
  | addi a b imm => exact ⟨_, encode_addi_iff.2 (immFields_operandOf h), rfl⟩
  | addis a b imm => exact ⟨_, encode_addis_iff.2 (immFields_operandOf h), rfl⟩
  | ori a b imm => exact ⟨_, encode_ori_iff.2 (immFields_operandOf h), rfl⟩
  | mtspr r id =>
    obtain ⟨hop, hxo, hrsv⟩ := h
    exact ⟨_, encode_mtspr_iff.2 (sprFields_operandOf hop hxo hrsv), rfl⟩
  | li a imm =>
    obtain ⟨hop, hrgb⟩ := h
    have himm := immFields_operandOf hop
    rw [hrgb] at himm
    exact ⟨_, (encode_li _ _).trans (encode_addi_iff.2 himm), rfl⟩
  | lis a imm =>
    obtain ⟨hop, hrgb⟩ := h
    have himm := immFields_operandOf hop
    rw [hrgb] at himm
    exact ⟨_, (encode_lis _ _).trans (encode_addis_iff.2 himm), rfl⟩
  | nop =>
    obtain ⟨hop, hrga, hrgb, hi⟩ := h
    have himm := immFields_operandOf hop
    rw [hrga, hrgb, hi] at himm
    exact ⟨_, encode_nop.trans (encode_ori_iff.2 himm), rfl⟩
  | bctr => exact ⟨_, encode_bctr_iff.2 h, rfl⟩

/-- The branch rows are those whose match begins with the opcode 18. -/
theorem opcode_eq_branch_iff (i : Instr) : i.opcode = .branch ↔ field i.row.pattern 0 6 = 18 := by
  cases i <;> simp only [row_eq, Instr.opcode] <;> decide

/-! ### The opcode in place (R66) -/

theorem encode_opcode {i : Instr} {w : Word} (h : encode i = some w) : field w 0 6 = opcodeVal params i.opcode := by
  cases i with
  | b form => exact Laws.OpcodeField.b form w h
  | ba form => exact Laws.OpcodeField.ba form w h
  | bl form => exact Laws.OpcodeField.bl form w h
  | bla form => exact Laws.OpcodeField.bla form w h
  | addi a b imm => exact Laws.OpcodeField.addi a b imm w h
  | addis a b imm => exact Laws.OpcodeField.addis a b imm w h
  | ori a b imm => exact Laws.OpcodeField.ori a b imm w h
  | mtspr r id => exact Laws.OpcodeField.mtspr r id w h
  | li a imm => exact Laws.OpcodeField.li a imm w h
  | lis a imm => exact Laws.OpcodeField.lis a imm w h
  | nop => exact Laws.OpcodeField.nop w h
  | bctr => exact Laws.OpcodeField.bctr w h

/-- An encoder command that does not fault leaves the word it encodes to in `W`. -/
theorem encode_of_exec {i : Instr} {s t : State} (hs : s.Live) (he : exec i s = .next t) (ht : t.ph ≠ .fault) :
    encode i = some t.w := by
  have hwf : i.raises = none := by
    cases hr : i.raises with
    | none => rfl
    | some c =>
      rw [exec_live i hs, hr] at he
      cases he
      exact absurd rfl ht
  rw [exec_next_of_not_fault hs he ht, encode_eq_some, Instr.wellFormed, hwf]
  exact ⟨rfl, rfl⟩

/-! ### The obligations -/

/-- Settles O38: the word's fields are the command's operands, and the decoder reads these. -/
theorem decodeOfEncode : Obligations.DecodeOfEncode := by
  intro i w rest h
  rw [decode_toBytes, decodeWord_of_encode h]

/-- Settles O39: the word is some command's, and what it decodes to, that command in the decoder's spelling, has the same
word; so decoding once more names it again. -/
theorem encodeOfDecode : Obligations.EncodeOfDecode := by
  intro w i h
  obtain ⟨j, hj⟩ := exists_encode_of_decodeWord h
  have hi : j.canonical = i := Except.ok.inj ((decodeWord_of_encode hj).symm.trans h)
  have hw : encode i = some w := hi ▸ encode_canonical hj
  exact ⟨hw, Except.ok.inj ((decodeWord_of_encode hw).symm.trans h)⟩

/-- Settles O40: the mask and match of a row fix some fields, and the command of the row with the other fields as its
operands has the word. -/
theorem rowWordsExactly : Obligations.RowWordsExactly := by
  intro j w
  rw [rowFields_iff]
  refine ⟨fun ⟨i, hrow, hi⟩ => ⟨?_, fun hop => ?_⟩, fun ⟨hfields, hli⟩ => ?_⟩
  · rw [← rowFields_iff, ← hrow, rowFields_iff]
    exact rowFields_of_encode hi
  · rw [opcode_eq_branch_iff, ← hrow, ← opcode_eq_branch_iff] at hop
    exact li_ne_of_encode hi hop
  · obtain ⟨i, hi, hrow⟩ := exists_encode_of_rowFields hfields hli
    exact ⟨i, hrow, hi⟩

/-- Settles O42: a command that ends in `OPEN` has left its encoding in `W`, whose top six bits are the opcode. -/
theorem opcodeInPlace : Obligations.OpcodeInPlace := fun i _ _ hs he ht =>
  encode_opcode (encode_of_exec hs he (by rw [ht]; decide))

/-- Settles O36: the offsets and widths as written in the layouts, and their sums. -/
theorem layoutsTile : Obligations.LayoutsTile := ⟨rfl, rfl, rfl, rfl, by decide⟩

/-- Settles O37: the decoder run on each of the words. -/
theorem sampleWordsDecode : Obligations.SampleWordsDecode :=
  ⟨by decide, by decide, by decide, by decide, by decide, by decide, decodeWord_bctr, by decide⟩

end Sys2Proof

/-! PROOF. The primitives of the word register: what `NEW`, `WUF` and `WSF` do in each phase, the bits a field write
leaves, and that no branch reaches the lower bound of `WSF`; and from these the obligations on one primitive command. -/

namespace Sys2Proof.Machine

/-! ### The bits of a deposit (R13, R104, R105) -/

/-- A deposit into a clear field reads back (R108). -/
theorem field_dep_of_clear {w : Word} {v width offset : Nat} (hs : offset + width ≤ 32) (hv : v < 2 ^ width)
    (hz : field w offset width = 0) : field (dep w v width offset) offset width = v := by
  rw [field_dep_self w v width offset hs hv, hz, Nat.or_zero]

/-- A deposit leaves every bit outside its field as it was (R102 f). -/
theorem bitAt_dep_of_outside {w : Word} {v width offset a : Nat} (hs : offset + width ≤ 32) (hv : v < 2 ^ width)
    (ha : a < 32) (hout : a < offset ∨ offset + width ≤ a) : bitAt (dep w v width offset) a = bitAt w a := by
  rw [bitAt, bitAt, dep_getLsbD]
  rcases hout with hbefore | hafter
  · have hle : width ≤ 31 - a - (32 - offset - width) := by omega
    rw [Nat.testBit_lt_two_pow (Nat.lt_of_lt_of_le hv (Nat.pow_le_pow_right (by omega) hle))]
    simp
  · have hlow : ¬ 32 - offset - width ≤ 31 - a := by omega
    simp [hlow]

/-- A deposit clears no bit (R20). -/
theorem and_dep_eq_self (w : Word) (v width offset : Nat) : w &&& dep w v width offset = w := by
  apply BitVec.eq_of_getLsbD_eq
  intro j _
  rw [BitVec.getLsbD_and, dep_getLsbD]
  cases w.getLsbD j <;> simp

/-- Deposits commute, being ORs (R107). -/
theorem dep_dep_comm (w : Word) (v width offset v' width' offset' : Nat) :
    dep (dep w v width offset) v' width' offset' = dep (dep w v' width' offset') v width offset := by
  rw [dep, dep, dep, dep, BitVec.or_assoc, BitVec.or_comm (BitVec.ofNat 32 _), ← BitVec.or_assoc]

/-- The magnitude bits of an operand below the upper bound are its low bits, whatever its sign (R104). -/
theorem magnitude_toInt {value : Operand} {width : Nat} (hhi : value.toInt < 2 ^ (width - 1)) :
    magnitude value.toInt width = value.toNat % 2 ^ (width - 1) := by
  have hpattern : u32 value.toInt = value := BitVec.ofInt_toInt
  rw [magnitude]
  split
  · rw [hpattern]
    exact Nat.and_two_pow_sub_one_eq_mod _ _
  case isFalse hpos =>
    have hnat : (value.toNat : Int) = value.toInt := by
      have hlt := operand_toNat_lt value
      rw [operand_toInt_eq] at hpos ⊢
      split_ifs at hpos ⊢ <;> omega
    rw [← hnat] at hhi ⊢
    have hsmall : value.toNat < 2 ^ (width - 1) := by exact_mod_cast hhi
    rw [Int.toNat_natCast, Nat.mod_eq_of_lt hsmall]

/-- A signed deposit as the two ORs of R104: the sign bit, and below it the low bits of the raw pattern. -/
theorem depSigned_eq_or {w : Word} {value : Operand} {width offset : Nat} (hw : 1 ≤ width)
    (hhi : value.toInt < 2 ^ (width - 1)) :
    depSigned w value.toInt width offset =
      w ||| BitVec.ofNat 32 (signBit value.toInt * 2 ^ (31 - offset)) |||
        BitVec.ofNat 32 (value.toNat % 2 ^ (width - 1) * 2 ^ (32 - offset - width)) := by
  have hsign : 32 - offset - 1 = 31 - offset := by omega
  have hmag : 32 - (offset + 1) - (width - 1) = 32 - offset - width := by omega
  rw [depSigned, magnitude_toInt hhi, dep, dep, hsign, hmag, Nat.shiftLeft_eq, Nat.shiftLeft_eq]

/-- The two's-complement pattern of a value as a number of its field (R105). -/
theorem pattern_lt (v : Int) (width : Nat) : (v % 2 ^ width).toNat < 2 ^ width := by
  have hpos : (0 : Int) < 2 ^ width := by positivity
  have hlt := Int.emod_lt_of_pos v hpos
  rw [← Int.ofNat_lt, Int.toNat_of_nonneg (Int.emod_nonneg v hpos.ne')]
  exact_mod_cast hlt

/-- Sign extension recovers a value from its two's-complement pattern (R105). -/
theorem sext_pattern {v : Int} {width : Nat} (hw : 1 ≤ width) (hlo : -(2 ^ (width - 1)) ≤ v)
    (hhi : v ≤ 2 ^ (width - 1) - 1) : sext width (v % 2 ^ width).toNat = v := by
  obtain ⟨k, rfl⟩ := Nat.exists_eq_succ_of_ne_zero (Nat.one_le_iff_ne_zero.1 hw)
  rw [Nat.succ_sub_one] at hlo hhi
  have hdouble : (2 : Int) ^ (k + 1) = 2 * 2 ^ k := by ring
  have hcast : ((2 ^ k : Nat) : Int) = 2 ^ k := by push_cast; rfl
  rw [sext, zext, Nat.mod_eq_of_lt (pattern_lt v _), Nat.succ_sub_one, Nat.succ_eq_add_one, hdouble]
  rcases lt_or_ge v 0 with hneg | hpos
  · have hmod : v % (2 * 2 ^ k) = v + 2 * 2 ^ k := by
      rw [← Int.add_emod_right, Int.emod_eq_of_lt] <;> omega
    rw [hmod]
    split <;> omega
  · rw [Int.emod_eq_of_lt hpos (by omega)]
    split <;> omega

/-- A signed deposit of a value in range is the unsigned deposit of its pattern (R105). -/
theorem depSigned_eq_dep {w : Word} {v : Int} {width offset : Nat} (hw : 1 ≤ width) (hs : offset + width ≤ 32)
    (hlo : -(2 ^ (width - 1)) ≤ v) (hhi : v ≤ 2 ^ (width - 1) - 1) :
    depSigned w v width offset = dep w (v % 2 ^ width).toNat width offset := by
  obtain ⟨k, rfl⟩ := Nat.exists_eq_succ_of_ne_zero (Nat.one_le_iff_ne_zero.1 hw)
  exact depSigned_eq w v k offset hlo hhi hs

/-- The pattern of a value is an operand's number, when the field is no wider than the port (R24). -/
theorem toNat_ofInt_pattern (v : Int) {width : Nat} (hw : width ≤ 32) :
    (BitVec.ofInt params.operandBits (v % 2 ^ width)).toNat = (v % 2 ^ width).toNat := by
  have hnonneg : 0 ≤ v % 2 ^ width := Int.emod_nonneg v (by positivity)
  have hport : (v % 2 ^ width).toNat < 2 ^ 32 :=
    (pattern_lt v width).trans_le (Nat.pow_le_pow_right (by omega) hw)
  have hlt : v % 2 ^ width < 2 ^ 32 := by omega
  exact (BitVec.toNat_ofInt (n := 32) _).trans (congrArg Int.toNat (Int.emod_eq_of_lt hnonneg hlt))

/-! ### The outcome of a field write (R102, R104) -/

/-- A field write by the phase it finds: only `OPEN` admits it. -/
theorem execCommand_deposit_by_phase {c : Command} {s t : State} (hd : c.deposit ≠ none)
    (hopen : s.ph = .opened → execCommand c s = .next t) :
    execCommand c s = .next (if s.ph = .fault then s else if s.ph = .idle then s.raise .order else t) := by
  cases hp : s.ph with
  | fault => exact execCommand_fault hp
  | idle => exact execCommand_deposit_order hd (by simp [hp]) (by simp [hp])
  | opened => exact hopen hp

/-- What the operands of `WUF` raise in `OPEN`, in the order of R102. -/
def wufRaises (value width offset : Nat) : Option Cause :=
  if 32 < offset + width then some .span else if 2 ^ width ≤ value then some .fit else none

/-- What the operands of `WSF` raise in `OPEN`, in the order of R104. -/
def wsfRaises (v : Int) (width offset : Nat) : Option Cause :=
  if width = 0 then some .fit
  else if 32 < offset + width then some .span
  else if v < -(2 ^ (width - 1)) ∨ 2 ^ (width - 1) ≤ v then some .fit
  else none

theorem wufRaises_eq_none_iff {value width offset : Nat} :
    wufRaises value width offset = none ↔ offset + width ≤ 32 ∧ value < 2 ^ width := by
  rw [wufRaises]
  split_ifs <;> simp <;> omega

theorem wsfRaises_eq_none_iff {v : Int} {width offset : Nat} :
    wsfRaises v width offset = none ↔
      1 ≤ width ∧ offset + width ≤ 32 ∧ -(2 ^ (width - 1)) ≤ v ∧ v ≤ 2 ^ (width - 1) - 1 := by
  rw [wsfRaises]
  split_ifs <;> simp <;> omega

theorem wufStep_opened (value width offset : Nat) {s : State} (hp : s.ph = .opened) :
    wufStep params value width offset s =
      (wufRaises value width offset).elim (.ok (s.setW (dep s.w value width offset))) .error := by
  rw [wufRaises]
  rcases wufStep_cases value width offset s with ⟨hn, -⟩ | ⟨-, hs, h⟩ | ⟨-, hs, hv, h⟩ | ⟨-, hs, hv, h⟩
  · exact absurd hp hn
  · rw [h, if_pos (Nat.lt_of_not_le hs)]
    rfl
  · rw [h, if_neg (Nat.not_lt.2 hs), if_pos (Nat.le_of_not_lt hv)]
    rfl
  · rw [h, if_neg (Nat.not_lt.2 hs), if_neg (Nat.not_le.2 hv)]
    rfl

theorem wsfStep_opened (v : Int) (width offset : Nat) {s : State} (hp : s.ph = .opened) :
    wsfStep params v width offset s =
      (wsfRaises v width offset).elim (.ok (s.setW (depSigned s.w v width offset))) .error := by
  rw [wsfRaises]
  rcases wsfStep_cases v width offset s with
    ⟨hn, -⟩ | ⟨-, hw, h⟩ | ⟨-, hw, hs, h⟩ | ⟨-, hw, hs, hv, h⟩ | ⟨-, hw, hs, hlo, hhi, h⟩
  · exact absurd hp hn
  · rw [h, if_pos hw]
    rfl
  · rw [h, if_neg (Nat.one_le_iff_ne_zero.1 hw), if_pos (Nat.lt_of_not_le hs)]
    rfl
  · rw [h, if_neg (Nat.one_le_iff_ne_zero.1 hw), if_neg (Nat.not_lt.2 hs), if_pos hv]
    rfl
  · have hin : ¬ (v < -(2 ^ (width - 1)) ∨ 2 ^ (width - 1) ≤ v) := by omega
    rw [h, if_neg (Nat.one_le_iff_ne_zero.1 hw), if_neg (Nat.not_lt.2 hs), if_neg hin]
    rfl

/-- An effect that writes `W` unless a cause is raised, performed in `OPEN`. -/
theorem perform_of_raises_setW {effect : State → Except Cause State} {s : State} {raised : Option Cause} {w : Word}
    (hp : s.ph = .opened) (h : effect s = raised.elim (.ok (s.setW w)) .error) :
    perform effect s = raised.elim (s.setW w) s.raise := by
  rw [setW_eq_openWith hp] at h ⊢
  exact perform_of_raises (by simp [hp]) h

theorem execWuf_opened (value : Operand) (width offset : FieldPort) {s : State} (hp : s.ph = .opened) :
    execWuf value width offset s = .next ((wufRaises value.toNat width.val offset.val).elim
      (s.setW (dep s.w value.toNat width.val offset.val)) s.raise) :=
  congrArg Host.Outcome.next (perform_of_raises_setW hp (wufStep_opened _ _ _ hp))

theorem execWsf_opened (value : Operand) (width offset : FieldPort) {s : State} (hp : s.ph = .opened) :
    execWsf value width offset s = .next ((wsfRaises value.toInt width.val offset.val).elim
      (s.setW (depSigned s.w value.toInt width.val offset.val)) s.raise) :=
  congrArg Host.Outcome.next (perform_of_raises_setW hp (wsfStep_opened _ _ _ hp))

/-! ### The parameter `WSF_NEG_CHECK` (R104 c) -/

/-- Within the lower bound `WSF` does the same whether it tests the bound or not. -/
theorem wsfStep_mask_of_le {v : Int} {width : Nat} (offset : Nat) (s : State) (hlo : -(2 ^ (width - 1)) ≤ v) :
    wsfStep { params with wsfNegCheck := .mask } v width offset s = wsfStep params v width offset s := by
  simp [wsfStep, hlo]

/-- A branch in range leaves the lower bound untouched: `RANGE` is tested first, and its bound is tighter. -/
theorem branchDisp_mask (aa lk : Bool) (d : Int) (s : State) :
    branchDisp { params with wsfNegCheck := .mask } aa lk d s = branchDisp params aa lk d s := by
  have hbase : branchBase { params with wsfNegCheck := .mask } aa lk s = branchBase params aa lk s := rfl
  rw [branchDisp, branchDisp, hbase, branchBase_eq]
  by_cases halign : branchAligned d
  · by_cases hrange : branchInRange params d
    · have hlo : -(2 ^ (24 - 1)) ≤ d / 4 := by
        have hbound : -8388607 ≤ d / 4 := hrange.1
        omega
      simp only [require_of _ halign, require_of _ hrange, bind, Except.bind]
      exact wsfStep_mask_of_le 6 _ hlo
    · simp only [require_of _ halign, require_of_not _ hrange, bind, Except.bind]
  · simp only [require_of_not _ halign, bind, Except.bind]

/-- No branch encoder reaches the lower bound of `WSF`. -/
theorem branch_mask (aa lk : Bool) (form : BranchForm) (s : State) :
    branch { params with wsfNegCheck := .mask } aa lk form s = branch params aa lk form s := by
  cases form with
  | base => rfl
  | disp offset => exact branchDisp_mask aa lk offset.toInt s
  | fromTo f t =>
    have hdiff : fromToOffset { params with wsfNegCheck := .mask } f t = fromToOffset params f t := rfl
    rw [branch, branch, hdiff, fromToOffset_eq]
    exact branchDisp_mask aa lk _ s

end Sys2Proof.Machine

namespace Sys2Proof

open Machine

/-- Settles O12: only `OPEN` admits a field write, and there the operands are tested in the order of the pseudocode. -/
theorem wufOutcome : Obligations.WufOutcome := by
  intro value width offset s
  refine execCommand_deposit_by_phase (c := .wuf value width offset) (Option.some_ne_none _) fun hp => ?_
  refine (execWuf_opened value width offset hp).trans ?_
  rw [wufRaises, dep, Nat.shiftLeft_eq]
  split_ifs <;> rfl

/-- Settles O13: as for `WUF`; the two deposits are the sign bit and the low bits of the pattern, and no branch reaches
the lower bound. -/
theorem wsfOutcome : Obligations.WsfOutcome := by
  refine ⟨fun value width offset s => ?_, branch_mask⟩
  refine execCommand_deposit_by_phase (c := .wsf value width offset) (Option.some_ne_none _) fun hp => ?_
  refine (execWsf_opened value width offset hp).trans ?_
  rw [wsfRaises, ← signBit]
  split_ifs with hw hs hv
  · rfl
  · rfl
  · rfl
  · rw [depSigned_eq_or (by omega) (by omega)]
    rfl

/-- Settles O14: the two deposits of `WSF` are the one deposit of the pattern, which `WUF` makes. -/
theorem wsfIsTwosComplement : Obligations.WsfIsTwosComplement := by
  intro value width offset s hp hw hs hlo hhi
  have hfits := pattern_lt value.toInt width.val
  refine ⟨s.setW (dep s.w (value.toInt % 2 ^ width.val).toNat width.val offset.val), ?_, ?_, fun hz => ?_⟩
  · rw [execWsf_opened value width offset hp, wsfRaises_eq_none_iff.2 ⟨hw, hs, hlo, hhi⟩,
      depSigned_eq_dep hw hs hlo hhi]
    rfl
  · rw [execWuf_opened _ width offset hp, toNat_ofInt_pattern _ (by omega), wufRaises_eq_none_iff.2 ⟨hs, hfits⟩]
    rfl
  · rw [State.setW_w, field_dep_of_clear hs hfits hz]
    exact ⟨Int.toNat_of_nonneg (Int.emod_nonneg _ (by positivity)), sext_pattern hw hlo hhi⟩

/-- Settles O15: an admitted `WUF` deposits its value, which the field then holds ORed to what it held. -/
theorem wufReadsBack : Obligations.WufReadsBack := by
  intro value width offset s hp hs hv
  refine ⟨s.setW (dep s.w value.toNat width.val offset.val), ?_, hp, field_dep_self s.w _ _ _ hs hv,
    field_dep_of_clear hs hv⟩
  rw [execWuf_opened value width offset hp, wufRaises_eq_none_iff.2 ⟨hs, hv⟩]
  rfl

/-- Settles O16: the field inside, and each bit outside. -/
theorem depositTouchesOnlyItsField : Obligations.DepositTouchesOnlyItsField := fun _ _ _ _ hs hv =>
  ⟨field_dep_of_clear hs hv, fun _ => bitAt_dep_of_outside hs hv⟩

/-- Settles O11: the deposit of the opcode at offset 0, performed. -/
theorem newStartsWord : Obligations.NewStartsWord := by
  refine ⟨fun op s hs => ?_, fun op s hf => execCommand_fault (c := .new op) hf⟩
  rw [← ofNat_natShiftLeft, Nat.shiftLeft_eq]
  exact execCommand_new_live op hs

end Sys2Proof

/-! PROOF. Commands on any word and sequences of field writes run by the machine: a field write as one OR into its
field, which operands let it be made, and the word a sequence leaves; and from these the obligations on what an outcome
depends on (R20, R182) and on sequences (R107). -/

namespace Sys2Proof

open Machine

/-- What a field write's operands raise in `OPEN` (R102, R104). -/
def Command.depositRaises : Command → Option Cause
  | .new _ => none
  | .wuf value width offset => wufRaises value.toNat width.val offset.val
  | .wsf value width offset => wsfRaises value.toInt width.val offset.val
  | .instr _ => none

/-- The word after a field write that is admitted (R102, R105). -/
def Command.depositInto (w : Word) (c : Command) : Word :=
  c.deposit.elim w fun f => dep w c.depositValue f.2 f.1

end Sys2Proof

namespace Sys2Proof.Machine

/-! ### One field write -/

theorem depositInto_of_deposit {c : Command} {f : Nat × Nat} (w : Word) (hf : c.deposit = some f) :
    c.depositInto w = dep w c.depositValue f.2 f.1 := by
  rw [Command.depositInto, hf, Option.elim_some]

/-- An admitted field write lies inside the word and its number inside the field. -/
theorem deposit_fits {c : Command} {f : Nat × Nat} (hf : c.deposit = some f) (hr : c.depositRaises = none) :
    f.1 + f.2 ≤ 32 ∧ c.depositValue < 2 ^ f.2 := by
  cases c with
  | wuf value width offset =>
    cases hf
    exact wufRaises_eq_none_iff.1 hr
  | wsf value width offset =>
    cases hf
    obtain ⟨-, hs, -, -⟩ := wsfRaises_eq_none_iff.1 hr
    exact ⟨hs, pattern_lt value.toInt width.val⟩
  | new op => cases hf
  | instr i => cases hf

/-- A field write in `OPEN`: the OR into its field, or the fault its operands raise; `W` decides nothing. -/
theorem execCommand_deposit_opened {c : Command} {s : State} (hd : c.deposit ≠ none) (hp : s.ph = .opened) :
    execCommand c s = .next (c.depositRaises.elim (s.setW (c.depositInto s.w)) s.raise) := by
  cases c with
  | wuf value width offset => exact execWuf_opened value width offset hp
  | wsf value width offset =>
    refine (execWsf_opened value width offset hp).trans ?_
    cases hr : wsfRaises value.toInt width.val offset.val with
    | none =>
      obtain ⟨hw, hs, hlo, hhi⟩ := wsfRaises_eq_none_iff.1 hr
      rw [depSigned_eq_dep hw hs hlo hhi, Command.depositRaises, hr]
      rfl
    | some k =>
      rw [Command.depositRaises, hr]
      rfl
  | new op => exact absurd rfl hd
  | instr i => exact absurd rfl hd

/-- A field write, in any phase, leaves `W` or ORs into it. -/
theorem execCommand_deposit_w {c : Command} {s t : State} (hd : c.deposit ≠ none) (hc : execCommand c s = .next t) :
    t.w = s.w ∨ t.w = c.depositInto s.w := by
  by_cases hf : s.ph = .fault
  · rw [execCommand_fault hf] at hc
    cases hc
    exact .inl rfl
  by_cases hp : s.ph = .opened
  · rw [execCommand_deposit_opened hd hp] at hc
    cases hr : c.depositRaises <;> rw [hr] at hc <;> cases hc
    · exact .inr rfl
    · exact .inl rfl
  · rw [execCommand_deposit_order hd hf hp] at hc
    cases hc
    exact .inl rfl

theorem and_depositInto_eq_self (w : Word) (c : Command) : w &&& c.depositInto w = w := by
  rw [Command.depositInto]
  cases c.deposit with
  | none => exact BitVec.and_self
  | some f => exact and_dep_eq_self w _ _ _

/-- Field writes commute, being ORs (R107). -/
theorem depositInto_comm (w : Word) (c d : Command) :
    d.depositInto (c.depositInto w) = c.depositInto (d.depositInto w) := by
  rw [Command.depositInto, Command.depositInto, Command.depositInto, Command.depositInto]
  cases c.deposit <;> cases d.deposit
  · rfl
  · rfl
  · rfl
  · exact dep_dep_comm w _ _ _ _ _ _

/-! ### Commands on any word (R20, R182) -/

/-- A command that begins a construction, on every live state: one word, or one fault, whatever is in `W` (R182). -/
theorem execCommand_begins {c : Command} (hd : c.deposit = none) :
    ∃ (raised : Option Cause) (w : Word), ∀ s : State, s.Live →
      execCommand c s = .next (raised.elim (s.openWith w) s.raise) := by
  cases c with
  | new op => exact ⟨none, _, fun _ hs => execCommand_new_live op hs⟩
  | instr i => exact ⟨i.raises, i.word, fun _ hs => exec_live i hs⟩
  | wuf value width offset => cases hd
  | wsf value width offset => cases hd

/-- Another word in `W` before a command can change nothing but `W` after it (R20). -/
theorem execCommand_setW (c : Command) (s : State) (x : Word) :
    ∃ (t : State) (y : Word), execCommand c s = .next t ∧ execCommand c (s.setW x) = .next (t.setW y) := by
  by_cases hf : s.ph = .fault
  · exact ⟨s, x, execCommand_fault hf, execCommand_fault hf⟩
  by_cases hd : c.deposit = none
  · obtain ⟨raised, w, h⟩ := execCommand_begins hd
    cases raised with
    | none => exact ⟨_, w, h s hf, h (s.setW x) hf⟩
    | some k => exact ⟨_, x, h s hf, h (s.setW x) hf⟩
  by_cases hp : s.ph = .opened
  · have h := execCommand_deposit_opened hd hp
    have hx := execCommand_deposit_opened (s := s.setW x) hd hp
    cases hr : c.depositRaises with
    | none =>
      rw [hr] at h hx
      exact ⟨_, c.depositInto x, h, hx⟩
    | some k =>
      rw [hr] at h hx
      exact ⟨_, x, h, hx⟩
  · exact ⟨_, x, execCommand_deposit_order hd hf hp, execCommand_deposit_order (s := s.setW x) hd hf hp⟩

/-! ### Sequences of field writes (R107) -/

/-- The run of a sequence of commands, one step at a time. -/
theorem run_commands_cons {c : Command} {cs : List Command} {s t : State}
    (h : execCommand c (s.withRequests (cs.map .command)) = .next t) :
    core.run (c :: cs).length (s.withRequests ((c :: cs).map .command)) = core.run cs.length t :=
  run_succ h

/-- In `FAULT` a sequence of commands runs to its end without effect (R179). -/
theorem run_commands_of_fault {s : State} (hs : s.ph = .fault) (cs : List Command) :
    core.run cs.length (s.withRequests (cs.map .command)) = .next (s.withRequests []) := by
  induction cs with
  | nil => rfl
  | cons c cs ih =>
    rw [run_commands_cons (execCommand_fault hs)]
    exact ih

/-- A sequence of field writes run from `OPEN` ends in `OPEN` exactly when the operands of each are admitted, and then
has made one deposit after the other. -/
theorem run_deposits_iff {cs : List Command} (hd : ∀ c ∈ cs, c.deposit ≠ none) {s : State} (hp : s.ph = .opened)
    (t : State) :
    core.run cs.length (s.withRequests (cs.map .command)) = .next t ∧ t.ph = .opened ↔
      (∀ c ∈ cs, c.depositRaises = none) ∧ t = (s.setW (cs.foldl Command.depositInto s.w)).withRequests [] := by
  induction cs generalizing s with
  | nil =>
    refine ⟨fun ⟨h, _⟩ => ⟨by simp, ?_⟩, fun ⟨_, h⟩ => ⟨?_, ?_⟩⟩
    · cases h
      rfl
    · rw [h]
      rfl
    · rw [h]
      exact hp
  | cons c cs ih =>
    obtain ⟨hdc, hdcs⟩ := List.forall_mem_cons.1 hd
    have hc := execCommand_deposit_opened (s := s.withRequests (cs.map .command)) hdc hp
    rw [run_commands_cons hc, List.forall_mem_cons]
    cases hr : c.depositRaises with
    | none =>
      refine (ih hdcs (s := s.setW (c.depositInto s.w)) hp).trans ?_
      simp
    | some k =>
      have hdead := run_commands_of_fault (s := s.raise k) rfl cs
      refine ⟨fun ⟨h, ht⟩ => ?_, fun ⟨⟨h, _⟩, _⟩ => by cases h⟩
      cases hdead.symm.trans h
      cases ht

/-- A field write outside a field leaves it as it was. -/
theorem field_depositInto_of_disjoint {c : Command} (hr : c.depositRaises = none) {f : Nat × Nat}
    (hf : f.1 + f.2 ≤ 32) (hdisj : ∀ g ∈ c.deposit, disjointFields f g) (w : Word) :
    field (c.depositInto w) f.1 f.2 = field w f.1 f.2 := by
  cases hg : c.deposit with
  | none => rw [Command.depositInto, hg, Option.elim_none]
  | some g =>
    obtain ⟨hs, hv⟩ := deposit_fits hg hr
    rw [depositInto_of_deposit w hg]
    exact field_dep_of_disjoint w _ _ _ _ _ hs hv hf (hdisj g hg).symm

/-- A sequence of field writes outside a field leaves it as it was. -/
theorem field_foldl_of_disjoint {cs : List Command} (hr : ∀ c ∈ cs, c.depositRaises = none) {f : Nat × Nat}
    (hf : f.1 + f.2 ≤ 32) (hdisj : ∀ c ∈ cs, ∀ g ∈ c.deposit, disjointFields f g) (w : Word) :
    field (cs.foldl Command.depositInto w) f.1 f.2 = field w f.1 f.2 := by
  induction cs generalizing w with
  | nil => rfl
  | cons c cs ih =>
    rw [List.forall_mem_cons] at hr hdisj
    exact (ih hr.2 hdisj.2 _).trans (field_depositInto_of_disjoint hr.1 hf hdisj.1 w)

/-- Admitted field writes into pairwise disjoint clear fields leave each field at its value: the first is not disturbed
by the later ones, and does not disturb the fields these find. -/
theorem field_foldl_deposits {cs : List Command} (hr : ∀ c ∈ cs, c.depositRaises = none)
    (hpair : cs.Pairwise fun c d => ∀ f ∈ c.deposit, ∀ g ∈ d.deposit, disjointFields f g) {w : Word}
    (hclear : ∀ c ∈ cs, ∃ f, c.deposit = some f ∧ field w f.1 f.2 = 0) :
    ∀ c ∈ cs, ∀ f ∈ c.deposit, field (cs.foldl Command.depositInto w) f.1 f.2 = c.depositValue := by
  induction cs generalizing w with
  | nil => simp
  | cons c cs ih =>
    rw [List.forall_mem_cons] at hr hclear ⊢
    obtain ⟨hrc, hrcs⟩ := hr
    obtain ⟨⟨f, hf, hz⟩, hclear⟩ := hclear
    obtain ⟨hfirst, hrest⟩ := List.pairwise_cons.1 hpair
    obtain ⟨hs, hv⟩ := deposit_fits hf hrc
    refine ⟨fun f' hf' => ?_, ih hrcs hrest fun d hd => ?_⟩
    · cases hf.symm.trans hf'
      rw [List.foldl_cons, field_foldl_of_disjoint hrcs hs (fun d hd => hfirst d hd f hf),
        depositInto_of_deposit w hf, field_dep_of_clear hs hv hz]
    · obtain ⟨g, hg, hzg⟩ := hclear d hd
      obtain ⟨hsg, -⟩ := deposit_fits hg (hrcs d hd)
      refine ⟨g, hg, ?_⟩
      rw [field_depositInto_of_disjoint hrc hsg (fun e he => (hfirst d hd e he g hg).symm), hzg]

end Sys2Proof.Machine

namespace Sys2Proof

open Machine

/-- Settles O17: a field write leaves `W` as it is or ORs into it. -/
theorem oneBitsOnlyGrow : Obligations.OneBitsOnlyGrow := by
  intro c s t hd hc
  rcases execCommand_deposit_w hd hc with h | h <;> rw [h]
  · exact BitVec.and_self
  · exact and_depositInto_eq_self s.w c

/-- Settles O18: another word before changes nothing but the word after. -/
theorem outcomeIgnoresWord : Obligations.OutcomeIgnoresWord := by
  intro c s x
  obtain ⟨t, y, ht, hu⟩ := execCommand_setW c s x
  exact ⟨t, t.setW y, ht, hu, rfl, rfl, rfl⟩

/-- Settles O19: a command that begins a construction opens the same word, or takes the same fault, from every word. -/
theorem noBitSurvives : Obligations.NoBitSurvives := by
  intro c s x hd hs
  obtain ⟨raised, w, h⟩ := execCommand_begins hd
  refine ⟨_, _, h s hs, h (s.setW x) hs, ?_⟩
  cases raised with
  | none => rfl
  | some k => rfl

/-- Settles O20: that a sequence is admitted, and the word it leaves, do not depend on its order, since ORs commute. -/
theorem depositOrderIrrelevant : Obligations.DepositOrderIrrelevant := by
  intro cs ds s t hd hperm hp hrun ht
  obtain ⟨hr, rfl⟩ := (run_deposits_iff hd hp t).1 ⟨hrun, ht⟩
  have hword : cs.foldl Command.depositInto s.w = ds.foldl Command.depositInto s.w :=
    hperm.foldl_eq' (fun c _ d _ w => depositInto_comm w c d) s.w
  have hd' : ∀ d ∈ ds, d.deposit ≠ none := fun d h => hd d (hperm.mem_iff.2 h)
  have hr' : ∀ d ∈ ds, d.depositRaises = none := fun d h => hr d (hperm.mem_iff.2 h)
  exact ((run_deposits_iff hd' hp _).2 ⟨hr', by rw [hword]⟩).1

/-- Settles O21: the run leaves the word of its deposits one after the other, in which each field reads back. -/
theorem disjointDepositsReadBack : Obligations.DisjointDepositsReadBack := by
  intro cs s t hpair hclear hp hrun ht
  have hd : ∀ c ∈ cs, c.deposit ≠ none := fun c hc => by
    obtain ⟨f, hf, -⟩ := hclear c hc
    simp [hf]
  obtain ⟨hr, rfl⟩ := (run_deposits_iff hd hp t).1 ⟨hrun, ht⟩
  exact field_foldl_deposits hr hpair hclear

end Sys2Proof

/-! PROOF. The branch family (41_branch_family.md): the three construction forms as one, the word of the displacement form
in closed form, and an encoder command under the decoder's spelling; and from these the obligations on the family. -/

namespace Sys2Proof.Machine

/-! ### The three construction forms (R123, R124, R126) -/

/-- The instantiation with the given flags is the family at these flags, performed (R120, R121). -/
theorem exec_branchInstr (aa lk : Bool) (form : BranchForm) (s : State) :
    exec (branchInstr aa lk form) s = .next (perform (branch params aa lk form) s) := by
  cases aa <;> cases lk <;> rfl

/-- Forms that ask for one offset do the same on every state, faults included: only the offset reaches the displacement
form. -/
theorem exec_branchInstr_congr (aa lk : Bool) {form form' : BranchForm} (s : State)
    (h : formOffset params form = formOffset params form') :
    exec (branchInstr aa lk form) s = exec (branchInstr aa lk form') s := by
  rw [exec_branchInstr, exec_branchInstr]
  exact congrArg Host.Outcome.next (perform_congr (by rw [branch_eq_disp, branch_eq_disp, h]))

theorem formOffset_base : formOffset params .base = .ok 0 := rfl

theorem formOffset_disp (o : Operand) : formOffset params (.disp o) = .ok o.toInt := rfl

/-- The address form asks for the wrapped difference (R126). -/
theorem formOffset_fromTo (f t : Operand) : formOffset params (.fromTo f t) = formOffset params (.disp (t - f)) :=
  fromToOffset_eq f t

/-- Equal addresses are at no distance, as in the base form (R126 c). -/
theorem formOffset_fromTo_self (f : Operand) : formOffset params (.fromTo f f) = formOffset params .base := by
  rw [formOffset_fromTo, BitVec.sub_self, formOffset_disp, formOffset_base]
  rfl

/-- The address form delegates to the displacement form (R126). -/
theorem exec_fromTo (aa lk : Bool) (f t : Operand) (s : State) :
    exec (branchInstr aa lk (.fromTo f t)) s = exec (branchInstr aa lk (.disp (t - f))) s :=
  exec_branchInstr_congr aa lk s (formOffset_fromTo f t)

/-! ### The words of the family (R123, R125) -/

/-- The base word of an instantiation: the opcode and the two flags, `LI` 0 (R121). -/
def branchBaseWord (aa lk : Bool) : Word := BitVec.ofNat 32 (1207959552 + flagBit aa * 2 + flagBit lk)

theorem exec_base_live (aa lk : Bool) {s : State} (hs : s.Live) :
    exec (branchInstr aa lk .base) s = .next (s.openWith (branchBaseWord aa lk)) := by
  rw [exec_branchInstr]
  exact congrArg Host.Outcome.next (perform_ok hs (branchBase_eq aa lk s))

/-- The bits of a pattern at the places of `LI`, as the number they make in the word. -/
theorem and_liMask (v : Word) : v &&& 0x03FFFFFC#32 = BitVec.ofNat 32 (v.toNat / 4 % 16777216 * 4) := by
  have hmask : v.toNat &&& 67108860 = v.toNat / 4 % 16777216 * 4 := by
    have hlow : v.toNat / 2 ^ 2 &&& (2 ^ 24 - 1) = v.toNat / 2 ^ 2 % 2 ^ 24 := Nat.and_two_pow_sub_one_eq_mod _ 24
    have hsplit := and_mul_two_pow_add (q := 2) (m := 2 ^ 24 - 1) (M := 0) v.toNat (by decide)
    rwa [hlow, Nat.and_zero] at hsplit
  apply BitVec.eq_of_toNat_eq
  rw [BitVec.toNat_ofNat, Nat.mod_eq_of_lt (by omega)]
  exact (BitVec.toNat_and v _).trans hmask

/-- A deposit of the word offset of a pattern puts the pattern's own bits in place (R125). -/
theorem dep_li_eq_or (w v : Word) : dep w (v.toNat / 4 % 16777216) 24 6 = w ||| (v &&& 0x03FFFFFC#32) := by
  rw [and_liMask, dep, Nat.shiftLeft_eq]

/-- `LI` of a displacement form, from the bits of the offset's pattern (R69). -/
theorem liField_disp (o : Operand) : liField (.disp o) = o.toNat / 4 % 16777216 := by
  have hli : liField (.disp o) = (o.toInt / 4 % 16777216).toNat := rfl
  have hlt := operand_toNat_lt o
  rw [hli, operand_toInt_eq]
  split <;> omega

/-- The word of layout BR is its base word with `LI` deposited. -/
theorem wordBR_eq_dep (aa lk : Bool) (form : BranchForm) :
    wordBR aa lk form = dep (branchBaseWord aa lk) (liField form) 24 6 := by
  have haa := flagBit_lt aa
  have hlk := flagBit_lt lk
  have hli := liField_lt form
  have hclear : field (branchBaseWord aa lk) 6 24 = 0 := by
    rw [branchBaseWord, field_ofNat (by omega)]
    omega
  apply BitVec.eq_of_toNat_eq
  rw [dep_toNat _ _ 24 6 (by omega) hli hclear, wordBR_eq, branchBaseWord]
  simp only [BitVec.toNat_ofNat]
  omega

/-- The closed form: the offset's pattern in place, its top six bits the opcode and its low two the flags (R125). -/
theorem wordBR_disp (aa lk : Bool) (o : Operand) :
    wordBR aa lk (.disp o) = branchBaseWord aa lk ||| (u32 o.toInt &&& 0x03FFFFFC#32) := by
  have hu : u32 o.toInt = o := BitVec.ofInt_toInt
  rw [wordBR_eq_dep, liField_disp, hu]
  exact dep_li_eq_or _ o

theorem word_branchInstr (aa lk : Bool) (form : BranchForm) : (branchInstr aa lk form).word = wordBR aa lk form := by
  cases aa <;> cases lk <;> rfl

theorem raises_branchInstr (aa lk : Bool) (form : BranchForm) : (branchInstr aa lk form).raises = formRaises form := by
  cases aa <;> cases lk <;> rfl

/-- A word-aligned offset within the symmetric range raises nothing (R124). -/
theorem formRaises_disp_of_admitted {o : Operand} (ha : o.toInt % 4 = 0) (hlo : -33554428 ≤ o.toInt)
    (hhi : o.toInt ≤ 33554428) : formRaises (.disp o) = none := by
  have hr : branchInRange params o.toInt := ⟨by rw [params_brMaxWords]; omega, by rw [params_brMaxWords]; omega⟩
  rw [formRaises, formOffset_disp]
  exact (if_neg (not_not_intro ha)).trans (if_neg (not_not_intro hr))

/-! ### An encoder command with admitted operands -/

/-- A well-formed command leaves exactly its layout's word (R21, R61). -/
theorem exec_of_wellFormed {i : Instr} {s : State} (hs : s.Live) (hwf : i.wellFormed = true) :
    exec i s = .next (s.openWith i.word) := by
  have hr : i.raises = none := Option.isNone_iff_eq_none.1 hwf
  rw [exec_live i hs, hr]
  rfl

theorem wellFormed_disp (aa lk : Bool) {o : Operand} (ha : o.toInt % 4 = 0) (hlo : -33554428 ≤ o.toInt)
    (hhi : o.toInt ≤ 33554428) : (branchInstr aa lk (.disp o)).wellFormed = true := by
  rw [Instr.wellFormed, raises_branchInstr, formRaises_disp_of_admitted ha hlo hhi]
  rfl

theorem exec_disp_admitted (aa lk : Bool) {o : Operand} {s : State} (hs : s.Live) (ha : o.toInt % 4 = 0)
    (hlo : -33554428 ≤ o.toInt) (hhi : o.toInt ≤ 33554428) : exec (branchInstr aa lk (.disp o)) s =
      .next (s.openWith (branchBaseWord aa lk ||| (u32 o.toInt &&& 0x03FFFFFC#32))) := by
  rw [exec_of_wellFormed hs (wellFormed_disp aa lk ha hlo hhi), word_branchInstr, wordBR_disp]

/-! ### The decoder's spelling (log entry 9) -/

/-- The other derived encoders by their general ones (R162, R163). -/
theorem exec_lis (r i : Operand) (s : State) : exec (.lis r i) s = exec (.addis r 0 i) s := rfl

theorem exec_nop (s : State) : exec .nop s = exec (.ori 0 0 0) s := rfl

/-- A branch in the decoder's spelling: the displacement form on the same offset. -/
theorem exec_canonical_branchInstr (aa lk : Bool) (form : BranchForm) (s : State) :
    exec (branchInstr aa lk form).canonical s = exec (branchInstr aa lk form) s := by
  rw [canonical_branchInstr]
  exact exec_branchInstr_congr aa lk s (formOffset_canonicalForm form)

theorem exec_canonical (i : Instr) (s : State) : exec i.canonical s = exec i s := by
  cases i with
  | b form => exact exec_canonical_branchInstr false false form s
  | ba form => exact exec_canonical_branchInstr true false form s
  | bl form => exact exec_canonical_branchInstr false true form s
  | bla form => exact exec_canonical_branchInstr true true form s
  | addi a b imm =>
    by_cases hb : b = 0
    · rw [Instr.canonical, if_pos hb, exec_li, hb]
    · rw [Instr.canonical, if_neg hb]
  | addis a b imm =>
    by_cases hb : b = 0
    · rw [Instr.canonical, if_pos hb, exec_lis, hb]
    · rw [Instr.canonical, if_neg hb]
  | ori a b imm =>
    by_cases hz : a = 0 ∧ b = 0 ∧ imm = 0
    · obtain ⟨rfl, rfl, rfl⟩ := hz
      exact exec_nop s
    · rw [Instr.canonical, if_neg hz]
  | mtspr | li | lis | nop | bctr => rfl

end Sys2Proof.Machine

namespace Sys2Proof

open Machine

/-- The fields of a branch word that do not depend on the operands (R132 c, d). -/
theorem BranchFields.flags {w : Word} {aa lk : Bool} {form : BranchForm} (h : BranchFields w aa lk form) :
    bitAt w 30 = aa ∧ bitAt w 31 = lk :=
  ⟨flagBit_injective ((field_one w 30).symm.trans h.aa), flagBit_injective ((field_one w 31).symm.trans h.lk)⟩

/-- Settles O23: an admitted offset's word is the base word with the offset's pattern at the places of `LI`. -/
theorem branchClosedForm : Obligations.BranchClosedForm := fun _ _ hs ha hlo hhi =>
  ⟨exec_disp_admitted false false hs ha hlo hhi, exec_disp_admitted true false hs ha hlo hhi,
    exec_disp_admitted false true hs ha hlo hhi, exec_disp_admitted true true hs ha hlo hhi⟩

/-- Settles O26: a word that a branch leaves is its encoding, whose fields give the offset, the opcode and the flags. -/
theorem branchFamilyLaws : Obligations.BranchFamilyLaws := by
  refine ⟨fun aa lk o s hs ha hlo hhi => ?_, exec_fromTo, fun aa lk form s t hs he ht => ?_⟩
  · have hwf := wellFormed_disp aa lk ha hlo hhi
    have hfields := encode_branch_iff.1 (encode_eq_some.2 ⟨hwf, rfl⟩)
    have hback : o.toInt = 4 * sext 24 (field (branchInstr aa lk (.disp o)).word 6 24) := Except.ok.inj hfields.offset
    exact ⟨_, exec_of_wellFormed hs hwf, rfl, hback.symm⟩
  · have hlive : t.ph ≠ .fault := by rw [ht]; decide
    have hfields := encode_branch_iff.1 (encode_of_exec hs he hlive)
    exact ⟨hfields.opcd, hfields.flags⟩

/-- Settles O41: a command whose operands raise nothing opens its layout's word. -/
theorem execEmitsItsWord : Obligations.ExecEmitsItsWord := fun _ _ => exec_of_wellFormed

/-- Settles O43: the decoder's spelling keeps the offset of a branch, and elsewhere names a derived encoder by the
operands that make it one. -/
theorem canonicalSameEffect : Obligations.CanonicalSameEffect := exec_canonical

/-- Settles O22: the base form never faults, and displacement 0 asks for the same offset. -/
theorem branchBaseWords : Obligations.BranchBaseWords := fun s hs =>
  ⟨exec_base_live false false hs, exec_base_live true false hs, exec_base_live false true hs,
    exec_base_live true true hs, fun aa lk => exec_branchInstr_congr aa lk s rfl⟩

/-- Settles O25: the address form asks for the wrapped difference, which is 0 for equal addresses. -/
theorem fromToDelegates : Obligations.FromToDelegates := fun aa lk f t s =>
  ⟨exec_fromTo aa lk f t s, exec_branchInstr_congr aa lk s (formOffset_fromTo_self f)⟩

end Sys2Proof

/-! PROOF. The fixed-shape encoders (42_fixed_shape.md): the three immediate encoders as one, the move to a special register
with its half swap, and the constant word of `BranchCounterRegister`; and from these the obligations on them. -/

namespace Sys2Proof

open Machine

/-! ### The immediate encoders (R140 to R144) -/

/-- What the three immediate encoders share: the immediate form with their own opcode, performed, and a word of layout
IMM. -/
structure ImmediateEncoder (mk : Operand → Operand → Operand → Instr) (op : Opcode) : Prop where
  exec_eq : ∀ a b i s, exec (mk a b i) s = .next (perform (immForm params op a b i) s)
  encode_iff : ∀ a b i w, encode (mk a b i) = some w ↔ ImmFields w (opcodeVal params op) a b i

theorem immediateEncoder_addi : ImmediateEncoder .addi .addImmediate :=
  ⟨exec_addi, fun _ _ _ _ => encode_addi_iff⟩

theorem immediateEncoder_addis : ImmediateEncoder .addis .addImmediateShifted :=
  ⟨fun _ _ _ _ => rfl, fun _ _ _ _ => encode_addis_iff⟩

theorem immediateEncoder_ori : ImmediateEncoder .ori .orImmediate :=
  ⟨fun _ _ _ _ => rfl, fun _ _ _ _ => encode_ori_iff⟩

/-- Each immediate encoder with its opcode number; the 14 is log entry 11's. -/
theorem immediateEncoder_of_mem {p : (Operand → Operand → Operand → Instr) × Nat}
    (hp : p ∈ [(Instr.addi, 14), (Instr.addis, 15), (Instr.ori, 24)]) :
    ∃ op, opcodeVal params op = p.2 ∧ ImmediateEncoder p.1 op := by
  simp only [List.mem_cons, List.not_mem_nil, or_false] at hp
  rcases hp with rfl | rfl | rfl
  · exact ⟨_, rfl, immediateEncoder_addi⟩
  · exact ⟨_, rfl, immediateEncoder_addis⟩
  · exact ⟨_, rfl, immediateEncoder_ori⟩

/-- The fields of the word determine the operands. -/
theorem ImmFields.operands_unique {w : Word} {opc opc' : Nat} {a b i a' b' i' : Operand} (h : ImmFields w opc a b i)
    (h' : ImmFields w opc' a' b' i') : a = a' ∧ b = b' ∧ i = i' :=
  ⟨BitVec.eq_of_toNat_eq (h.rga.symm.trans h'.rga), BitVec.eq_of_toNat_eq (h.rgb.symm.trans h'.rgb),
    BitVec.eq_of_toNat_eq (h.imm.symm.trans h'.imm)⟩

namespace ImmediateEncoder

variable {mk : Operand → Operand → Operand → Instr} {op : Opcode} {a b i : Operand} {s t : State}

theorem exec_fits (he : ImmediateEncoder mk op) (hs : s.Live) (ha : a.toNat < 32) (hb : b.toNat < 32)
    (hi : i.toNat < 65536) : exec (mk a b i) s = .next (s.openWith (BitVec.ofNat 32 (opcodeVal params op) <<< 26 |||
      BitVec.ofNat 32 a.toNat <<< 21 ||| BitVec.ofNat 32 b.toNat <<< 16 ||| BitVec.ofNat 32 i.toNat)) := by
  rw [he.exec_eq, perform_immForm_fits op hs ha hb hi]

theorem exec_unfit (he : ImmediateEncoder mk op) (hs : s.Live)
    (h : 32 ≤ a.toNat ∨ 32 ≤ b.toNat ∨ 65536 ≤ i.toNat) : exec (mk a b i) s = .next (s.raise .fit) := by
  rw [he.exec_eq, perform_immForm_unfit op hs h]

/-- The word an immediate encoder leaves holds its operands. -/
theorem immFields_of_exec (he : ImmediateEncoder mk op) (hs : s.Live) (hx : exec (mk a b i) s = .next t)
    (ht : t.ph = .opened) : ImmFields t.w (opcodeVal params op) a b i :=
  (he.encode_iff a b i t.w).1 (encode_of_exec hs hx (by simp [ht]))

end ImmediateEncoder

/-! ### The move to a special register (R146, R147) -/

/-- The high half of an identifier at offset 16, above the fixed fields: 934 is the 467 of `XO` with `RSV` 0 below it. -/
theorem ofNat_sprHigh_add (h : Nat) : BitVec.ofNat 32 (h * 2048 + 934) = BitVec.ofNat 32 h <<< 11 ||| 0x3A6#32 := by
  have hor : h <<< 11 + 934 = h <<< 11 ||| 934 := Nat.shiftLeft_add_eq_or_of_lt (by decide) h
  rw [← ofNat_natShiftLeft, ← BitVec.ofNat_or, ← hor, Nat.shiftLeft_eq]

/-- The closed form of the word (R146): layout SPR read as layout IMM, whose second register is the low half of the
identifier and whose immediate is the high half above the fixed fields. -/
theorem word_mtspr_eq_or {r id : Operand} (hr : r.toNat < 32) (hid : id.toNat < 1024) :
    (Instr.mtspr r id).word = 0x7C0003A6#32 ||| BitVec.ofNat 32 r.toNat <<< 21 |||
      BitVec.ofNat 32 (id.toNat % 32) <<< 16 ||| BitVec.ofNat 32 (id.toNat / 32) <<< 11 := by
  have hnum : 2080375718 + r.toNat * 2097152 + swap10 id.toNat * 2048 =
      31 * 67108864 + r.toNat * 2097152 + id.toNat % 32 * 65536 + (id.toNat / 32 * 2048 + 934) := by
    rw [swap10_eq _ hid]
    omega
  have hfixed : (0x7C0003A6#32 : Word) = 0x3A6#32 ||| BitVec.ofNat 32 31 <<< 26 := by decide
  rw [word_mtspr_eq, hnum, imm_fields_eq_or (by omega) hr (by omega) (by omega), ofNat_sprHigh_add, hfixed,
    ← BitVec.or_assoc, BitVec.or_comm _ 0x3A6#32]
  simp only [BitVec.or_assoc]

theorem wellFormed_mtspr_iff (r id : Operand) :
    (Instr.mtspr r id).wellFormed = true ↔ r.toNat < 32 ∧ id.toNat < 1024 := by
  rw [Instr.wellFormed, Instr.raises, fitUnless_isNone, Bool.and_eq_true, regFits_iff, sprFits_iff]

theorem exec_mtspr_unfit {r id : Operand} {s : State} (hs : s.Live) (h : 32 ≤ r.toNat ∨ 1024 ≤ id.toNat) :
    exec (.mtspr r id) s = .next (s.raise .fit) := by
  have hfit : ¬ (r.toNat < 32 ∧ id.toNat < 1024) := by omega
  exact congrArg Host.Outcome.next (perform_error hs ((moveToSpr_eq r id s).trans (if_neg hfit)))

/-- The half swap undone: the identifier read back from its field (R147). -/
theorem SprFields.swap10_sprf {w : Word} {r id : Operand} (h : SprFields w r id) : swap10 (field w 11 10) = id.toNat := by
  rw [h.sprf, swap10_swap10 h.idFits]

/-- The fields of the word determine the operands. -/
theorem SprFields.operands_unique {w : Word} {r id r' id' : Operand} (h : SprFields w r id) (h' : SprFields w r' id') :
    r = r' ∧ id = id' :=
  ⟨BitVec.eq_of_toNat_eq (h.rs.symm.trans h'.rs), BitVec.eq_of_toNat_eq (h.swap10_sprf.symm.trans h'.swap10_sprf)⟩

/-- The word a move to a special register leaves holds its operands. -/
theorem sprFields_of_exec {r id : Operand} {s t : State} (hs : s.Live) (hx : exec (.mtspr r id) s = .next t)
    (ht : t.ph = .opened) : SprFields t.w r id :=
  encode_mtspr_iff.1 (encode_of_exec hs hx (by simp [ht]))

/-! ### The constant word (R148) -/

/-- The word's low 26 bits in one deposit below the opcode, the corner case a of R148. -/
theorem wufStep_bctr_single (s : State) :
    wufStep params 0x2800420 26 6 (newStep params .branchToRegisterOnCondition s) =
      .ok (s.openWith 0x4E800420#32) := by
  have hdep : dep (BitVec.ofNat 32 (19 * 67108864)) 0x2800420 26 6 = 0x4E800420#32 := by decide
  rw [newStep_eq, opcodeVal_branchToRegisterOnCondition, wufStep_openWith_ok s _ (by omega) (by omega), hdep]

/-! ### The obligations -/

/-- Settles O27: the word of an immediate encoder is the OR of its four shifted fields, which read back, so that they
determine the operands; an operand too wide raises `FIT`. -/
theorem immediateClosedForm : Obligations.ImmediateClosedForm := by
  intro p hp
  obtain ⟨op, hop, he⟩ := immediateEncoder_of_mem hp
  rw [← hop]
  refine ⟨fun a b i s hs ha hb hi => ?_, fun a b i s => he.exec_unfit, fun a b i a' b' i' s t hs hx hx' ht => ?_⟩
  · have hx := he.exec_fits hs ha hb hi
    obtain ⟨hopcd, hrga, hrgb, himm⟩ := he.immFields_of_exec hs hx rfl
    exact ⟨hx, _, hx, hopcd, hrga, hrgb, himm⟩
  · exact (he.immFields_of_exec hs hx ht).operands_unique (he.immFields_of_exec hs hx' ht)

/-- Settles O28: an identifier below 1024 is two halves of five bits, which the swap exchanges. -/
theorem halfSwap : Obligations.HalfSwap := by
  refine ⟨by decide, fun n hn => ⟨swap10_lt n hn, ?_, ?_, swap10_swap10 hn⟩⟩
  · rw [swap10_eq n hn]
    omega
  · rw [swap10_eq n hn]
    omega

/-- Settles O29: admitted operands give the word of layout SPR, any other raises `FIT`. -/
theorem moveToSprOutcome : Obligations.MoveToSprOutcome := by
  refine fun r id s hs => ⟨fun hr hid => ?_, exec_mtspr_unfit hs⟩
  rw [exec_of_wellFormed hs ((wellFormed_mtspr_iff r id).2 ⟨hr, hid⟩), word_mtspr_eq_or hr hid]

/-- Settles O30: the fields of the word a move to a special register leaves are the fixed ones and its operands. -/
theorem moveToSprLaws : Obligations.MoveToSprLaws := by
  refine ⟨fun r id s hs hr hid => ?_, fun r n r' n' s t hs hx hx' ht => ?_⟩
  · have hx := exec_of_wellFormed hs ((wellFormed_mtspr_iff r id).2 ⟨hr, hid⟩)
    have hf := sprFields_of_exec hs hx rfl
    exact ⟨_, hx, rfl, hf.opcd, hf.xo, hf.rsv, hf.rs, hf.swap10_sprf⟩
  · exact (sprFields_of_exec hs hx ht).operands_unique (sprFields_of_exec hs hx' ht)

/-- Settles O31: the five deposits and the single one build the constant word. -/
theorem branchCtrWord : Obligations.BranchCtrWord := by
  refine fun s hs => ⟨?_, rfl, congrArg Except.toOption (wufStep_bctr_single s)⟩
  exact congrArg Host.Outcome.next (perform_ok hs (branchCtr_eq s))

end Sys2Proof

/-! PROOF. The derived encoders `lis` and `nop` (43_derived.md, R162, R163): immediate encoders whose second register is 0,
and from this the obligation on them. -/

namespace Sys2Proof

open Machine

/-- An immediate encoder with second register 0: the field at offset 16 adds nothing to the word. -/
theorem ImmediateEncoder.exec_fits_zeroSecond {mk : Operand → Operand → Operand → Instr} {op : Opcode} {a i : Operand}
    {s : State} (he : ImmediateEncoder mk op) (hs : s.Live) (ha : a.toNat < 32) (hi : i.toNat < 65536) :
    exec (mk a 0 i) s = .next (s.openWith
      (BitVec.ofNat 32 (opcodeVal params op) <<< 26 ||| BitVec.ofNat 32 a.toNat <<< 21 ||| BitVec.ofNat 32 i.toNat)) := by
  have hzero : BitVec.ofNat 32 (0 : Operand).toNat <<< 16 = 0#32 := by decide
  rw [he.exec_fits hs ha (by decide) hi, hzero, BitVec.or_zero]

/-- `lis` with operands that fit: opcode 15 and the two operands in place (R162). -/
theorem exec_lis_fits {r i : Operand} {s : State} (hs : s.Live) (hr : r.toNat < 32) (hi : i.toNat < 65536) :
    exec (.lis r i) s =
      .next (s.openWith (0x3C000000#32 ||| BitVec.ofNat 32 r.toNat <<< 21 ||| BitVec.ofNat 32 i.toNat)) := by
  have hopc : BitVec.ofNat 32 15 <<< 26 = 0x3C000000#32 := by decide
  rw [exec_lis, immediateEncoder_addis.exec_fits_zeroSecond hs hr hi, opcodeVal_addImmediateShifted, hopc]

theorem exec_lis_unfit {r i : Operand} {s : State} (hs : s.Live) (h : 32 ≤ r.toNat ∨ 65536 ≤ i.toNat) :
    exec (.lis r i) s = .next (s.raise .fit) := by
  rw [exec_lis, immediateEncoder_addis.exec_unfit hs (h.imp_right .inr)]

/-- `nop` is opcode 24 alone, its three operands being 0 (R163). -/
theorem exec_nop_live {s : State} (hs : s.Live) : exec .nop s = .next (s.openWith 0x60000000#32) := by
  have hword : BitVec.ofNat 32 24 <<< 26 ||| BitVec.ofNat 32 (0 : Operand).toNat <<< 21 |||
      BitVec.ofNat 32 (0 : Operand).toNat = 0x60000000#32 := by decide
  rw [exec_nop, immediateEncoder_ori.exec_fits_zeroSecond hs (by decide) (by decide), opcodeVal_orImmediate, hword]

/-- Settles O32: `lis` is `addis` with source register 0 and `nop` is `ori` with every operand 0, so their outcomes are
those of an immediate encoder whose second register's field is empty. -/
theorem shiftedAndNop : Obligations.ShiftedAndNop :=
  ⟨exec_lis, exec_nop, fun _ _ _ => exec_lis_fits, fun _ _ _ => exec_lis_unfit, fun _ => exec_nop_live⟩

end Sys2Proof

/-! PROOF. Faults and frames (60_exceptions.md): what a command that ends in `FAULT` has done, what `FAULT` still admits, the
fault of ill-formed operands and of a branch displacement, and the step on a placed word; and from these the obligations. -/

namespace Sys2Proof.Machine

/-! ### Fault entry (R178) -/

/-- A fault hides the word: none of the outputs shows it (R25). -/
theorem State.outputs_of_fault {s : State} (h : s.ph = .fault) :
    s.wordValid = false ∧ s.faultOut = true ∧ s.wordOut = none ∧ s.bytesOut = none := by
  have hn : s.ph ≠ .opened := by rw [h]; decide
  have hvalid : s.wordValid = false := Bool.eq_false_iff.2 (mt s.wordValid_iff.1 hn)
  exact ⟨hvalid, s.faultOut_iff.2 h, s.wordOut_of_not_opened hn, s.bytesOut_of_not_opened hn⟩

/-- A command that takes a live state to `FAULT` has taken a fault and done nothing else. -/
theorem execCommand_eq_raise {c : Command} {s t : State} (hs : s.Live) (hc : execCommand c s = .next t)
    (ht : t.ph = .fault) : ∃ k, t = s.raise k := by
  rcases execCommand_cases c s with ⟨hf, -⟩ | ⟨-, w, he⟩ | ⟨-, k, he⟩
  · exact absurd hf hs
  · rw [he] at hc
    cases hc
    cases ht
  · rw [he] at hc
    cases hc
    exact ⟨k, rfl⟩

/-! ### In `FAULT` (R179) -/

theorem step_fault_command {s : State} {c : Command} {rest : List Request} (hs : s.ph = .fault)
    (hr : s.requests = .command c :: rest) : step s = .next (s.withRequests rest) := by
  rw [step_of_command hr]
  exact execCommand_fault hs

/-- A step out of `FAULT` that is no reset changes at most what is still to be presented. -/
theorem step_fault_eq_withRequests {s t : State} (hs : s.ph = .fault) (hst : step s = .next t)
    (hr : ∀ rest, s.requests ≠ .reset :: rest) : ∃ rest, t = s.withRequests rest := by
  rcases step_cases s with ⟨-, he⟩ | ⟨rest, h, -⟩ | ⟨c, rest, h, -⟩ | ⟨c, rest, -, he⟩ | ⟨c, d, rest, -, he⟩
  · rw [he] at hst
    cases hst
    exact ⟨s.requests, rfl⟩
  · exact absurd h (hr rest)
  · rw [step_fault_command hs h] at hst
    cases hst
    exact ⟨rest, rfl⟩
  · rw [he] at hst
    cases hst
  · rw [he] at hst
    cases hst

/-! ### The frame of a command -/

/-- A field write that does not end in `FAULT` was made in `OPEN`, and stays there. -/
theorem execCommand_deposit_keeps_ph {c : Command} {s t : State} (hd : c.deposit ≠ none)
    (hc : execCommand c s = .next t) (ht : t.ph ≠ .fault) : t.ph = s.ph := by
  cases hp : s.ph with
  | fault =>
    rw [execCommand_fault hp] at hc
    cases hc
    exact absurd hp ht
  | idle =>
    rw [execCommand_deposit_order hd (by simp [hp]) (by simp [hp])] at hc
    cases hc
    exact absurd rfl ht
  | opened => exact (execCommand_live_ph (by simp [hp]) hc).resolve_right ht

/-- What every command leaves unchanged, by the three outcomes of `execCommand_cases`. -/
theorem execCommand_frame {c : Command} {s t : State} (hc : execCommand c s = .next t) :
    t.requests = s.requests ∧ (t.ph ≠ .fault → t.fc = s.fc) ∧ (t.ph = .fault → t.w = s.w) := by
  rcases execCommand_cases c s with ⟨-, he⟩ | ⟨-, w, he⟩ | ⟨-, k, he⟩ <;> rw [he] at hc <;> cases hc
  · exact ⟨rfl, fun _ => rfl, fun _ => rfl⟩
  · exact ⟨rfl, fun _ => rfl, fun hf => absurd hf (by simp)⟩
  · exact ⟨rfl, fun hn => absurd rfl hn, fun _ => rfl⟩

/-! ### The fault of an encoder command (R172, R174, R175) -/

/-- On a live state the operands decide: a cause they raise is the fault taken. -/
theorem exec_of_raises {i : Instr} {k : Cause} {s : State} (hs : s.Live) (hr : i.raises = some k) :
    exec i s = .next (s.raise k) := by
  rw [exec_live i hs, hr]
  rfl

theorem formRaises_disp_of_misaligned {o : Operand} (ha : o.toInt % 4 ≠ 0) : formRaises (.disp o) = some .align := by
  rw [formRaises, formOffset_disp]
  exact if_pos ha

/-- The bound counts words; for an aligned offset it is this bound in bytes (R175). -/
theorem formRaises_disp_of_outOfRange {o : Operand} (ha : o.toInt % 4 = 0)
    (hr : o.toInt < -33554428 ∨ 33554428 < o.toInt) : formRaises (.disp o) = some .range := by
  have hout : ¬ branchInRange params o.toInt := by
    rw [branchInRange, params_brMaxWords]
    omega
  rw [formRaises, formOffset_disp]
  exact (if_neg (not_not_intro ha)).trans (if_pos hout)

theorem exec_disp_misaligned (aa lk : Bool) {o : Operand} {s : State} (hs : s.Live) (ha : o.toInt % 4 ≠ 0) :
    exec (branchInstr aa lk (.disp o)) s = .next (s.raise .align) :=
  exec_of_raises hs ((raises_branchInstr aa lk _).trans (formRaises_disp_of_misaligned ha))

theorem exec_disp_outOfRange (aa lk : Bool) {o : Operand} {s : State} (hs : s.Live) (ha : o.toInt % 4 = 0)
    (hr : o.toInt < -33554428 ∨ 33554428 < o.toInt) :
    exec (branchInstr aa lk (.disp o)) s = .next (s.raise .range) :=
  exec_of_raises hs ((raises_branchInstr aa lk _).trans (formRaises_disp_of_outOfRange ha hr))

/-! ### The placed word (log entries 2 and 9) -/

/-- A presented encoder command is the next step. -/
theorem step_presentInstr (i : Instr) (s : State) : step (presentInstr i s) = exec i s :=
  step_withRequests_command s (.instr i) s.requests

theorem withFetchWord_of_decode {nbits w : Nat} {i : Instr} (h : decodeTableWord nbits w = some i) (s : State) :
    s.withFetchWord nbits w = presentInstr i s := by
  simp only [State.withFetchWord, h]

end Sys2Proof.Machine

namespace Sys2Proof

open Machine

/-- Reading a command from table bits is decoding the word they are (R42). -/
theorem decodeWord_of_decodeTableWord {nbits w : Nat} {i : Instr} (h : decodeTableWord nbits w = some i) :
    decodeWord (BitVec.ofNat 32 (w % 2 ^ nbits)) = .ok i := by
  have hbytes := decode_toBytes (BitVec.ofNat 32 (w % 2 ^ nbits)) []
  rw [List.append_nil] at hbytes
  rw [decodeTableWord, hbytes] at h
  cases hd : decodeWord (BitVec.ofNat 32 (w % 2 ^ nbits)) with
  | ok j =>
    rw [hd] at h
    exact congrArg Except.ok (Option.some.inj h)
  | error e =>
    rw [hd] at h
    cases h

/-! ### The obligations -/

/-- Settles O7: a raised cause is taken from the state before the effect, and so it is for every command that ends in
`FAULT`; the outputs read the phase. -/
theorem faultEntry : Obligations.FaultEntry := by
  refine ⟨fun effect k s hs he => ?_, fun c s t hs hc ht => ?_⟩
  · obtain ⟨hvalid, hfault, -, -⟩ := State.outputs_of_fault (s.raise_ph k)
    rw [perform_error hs he]
    exact ⟨rfl, rfl, rfl, hvalid, hfault⟩
  · obtain ⟨k, rfl⟩ := execCommand_eq_raise hs hc ht
    exact ⟨rfl, rfl, ⟨k, rfl⟩, State.outputs_of_fault ht⟩

/-- Settles O8: in `FAULT` a command is performed without effect, so a step that is no reset only takes its event. -/
theorem faultIsTerminal : Obligations.FaultIsTerminal := by
  refine ⟨fun _ _ => execCommand_fault, fun _ _ _ => step_fault_command, fun s t hs hst hr => ?_⟩
  obtain ⟨rest, rfl⟩ := step_fault_eq_withRequests hs hst hr
  exact ⟨rfl, rfl, rfl⟩

/-- Settles O10: an encoder command on a live state opens its word or takes the fault its operands raise. -/
theorem illFormedOperandsRaise : Obligations.IllFormedOperandsRaise := fun _ _ _ => exec_of_raises

/-- Settles O24: what a displacement raises, and the address form delegating to it. -/
theorem branchFaults : Obligations.BranchFaults := by
  refine fun aa lk s hs => ⟨fun o => exec_disp_misaligned aa lk hs, fun o => exec_disp_outOfRange aa lk hs,
    fun f t ha => ?_, fun f t ha hr => ?_⟩
  · rw [exec_fromTo, exec_disp_misaligned aa lk hs ha]
  · rw [exec_fromTo, exec_disp_outOfRange aa lk hs ha hr]

/-- Settles O46: the frame of every command, and of a field write the phase with it. -/
theorem commandFrame : Obligations.CommandFrame := by
  intro c s t hc
  obtain ⟨hrequests, hfc, hw⟩ := execCommand_frame hc
  exact ⟨hrequests, hfc, hw, fun hd => execCommand_deposit_keeps_ph hd hc⟩

/-- Settles O45: a word that decodes is its command's encoding, so the command is well-formed; and placing it presents that
command for the next step. -/
theorem placedWordRuns : Obligations.PlacedWordRuns := by
  intro s nbits w i h
  obtain ⟨hencode, -⟩ := encodeOfDecode _ i (decodeWord_of_decodeTableWord h)
  obtain ⟨hwf, -⟩ := encode_eq_some.1 hencode
  refine ⟨hwf, ?_⟩
  rw [withFetchWord_of_decode h, step_presentInstr]

end Sys2Proof

/-! PROOF. Reset and the order of commands (70_reset_and_hazards.md): the step on each reset event, what a step that is no
reset does to the phase, and which commands can raise `ORDER`; and from these the obligations. -/

namespace Sys2Proof.Machine

/-! ### Reset (R200) -/

theorem step_of_reset {s : State} {rest : List Request} (h : s.requests = .reset :: rest) :
    step s = .next (s.withRequests rest).assertReset := by
  simp only [step, takeRequest, h, execRequest]

theorem step_of_resetDuring {s : State} {c : Command} {rest : List Request} (h : s.requests = .resetDuring c :: rest) :
    step s = .refused .overlappingUse := by
  simp only [step, takeRequest, h, execRequest]

/-- An answered step that takes no reset keeps the phase, or performs a command on a live state, which ends in `OPEN` or
`FAULT`. -/
theorem step_ph_of_not_reset {s t : State} (hst : step s = .next t) (hr : ¬ ∃ rest, s.requests = .reset :: rest) :
    t.ph = s.ph ∨ (s.Live ∧ (t.ph = .opened ∨ t.ph = .fault)) := by
  rcases step_cases s with ⟨-, he⟩ | ⟨rest, h, -⟩ | ⟨c, rest, -, he⟩ | ⟨c, rest, -, he⟩ | ⟨c, d, rest, -, he⟩
  · rw [he] at hst
    cases hst
    exact .inl rfl
  · exact absurd ⟨rest, h⟩ hr
  · rw [he] at hst
    by_cases hf : s.ph = .fault
    · rw [execCommand_fault (s := s.withRequests rest) hf] at hst
      cases hst
      exact .inl rfl
    · exact .inr ⟨hf, execCommand_live_ph (s := s.withRequests rest) hf hst⟩
  · rw [he] at hst
    cases hst
  · rw [he] at hst
    cases hst

/-! ### The fault `ORDER` (R202) -/

/-- No operand check of an encoder command raises `ORDER` (R171): a branch raises `ALIGN` or `RANGE`, the others `FIT`. -/
theorem raises_ne_order (i : Instr) : i.raises ≠ some .order := by
  have hform (form : BranchForm) : formRaises form ≠ some .order := by
    obtain ⟨o, -, ⟨-, hr⟩ | ⟨-, -, hr⟩ | ⟨-, -, hr⟩⟩ := formRaises_cases form <;> rw [hr] <;> decide
  have hfit (ok : Bool) : fitUnless ok ≠ some .order := by cases ok <;> decide
  cases i with
  | b form => exact hform form
  | ba form => exact hform form
  | bl form => exact hform form
  | bla form => exact hform form
  | addi a b imm => exact hfit _
  | addis a b imm => exact hfit _
  | ori a b imm => exact hfit _
  | mtspr r id => exact hfit _
  | li a imm => exact hfit _
  | lis a imm => exact hfit _
  | nop => exact nofun
  | bctr => exact nofun

/-- No operand check of a field write raises `ORDER`: they raise `SPAN` or `FIT` (R102, R104). -/
theorem depositRaises_ne_order (c : Command) : c.depositRaises ≠ some .order := by
  cases c with
  | new op => exact nofun
  | wuf value width offset =>
    rw [Command.depositRaises, wufRaises]
    split_ifs <;> decide
  | wsf value width offset =>
    rw [Command.depositRaises, wsfRaises]
    split_ifs <;> decide
  | instr i => exact nofun

/-- An opened word is no fault, and a fault shows its own cause. -/
theorem elim_openWith_raise_ne {s : State} {raised : Option Cause} {k : Cause} (w : Word) (h : raised ≠ some k) :
    raised.elim (s.openWith w) s.raise ≠ s.raise k := by
  intro he
  cases raised with
  | none => exact absurd (congrArg State.ph he) (by simp)
  | some c => exact h (congrArg State.fc he)

/-- On a live state `ORDER` is raised by field writes outside `OPEN` only. -/
theorem execCommand_ne_order {c : Command} {s : State} (hs : s.Live) (h : s.ph = .opened ∨ c.deposit = none) :
    execCommand c s ≠ .next (s.raise .order) := by
  intro he
  by_cases hd : c.deposit = none
  · cases c with
    | new op =>
      rw [execCommand_new_live op hs] at he
      exact elim_openWith_raise_ne (raised := none) _ nofun (Host.Outcome.next.inj he)
    | instr i =>
      rw [execCommand_instr, exec_live i hs] at he
      exact elim_openWith_raise_ne _ (raises_ne_order i) (Host.Outcome.next.inj he)
    | wuf value width offset => cases hd
    | wsf value width offset => cases hd
  · have hp : s.ph = .opened := h.resolve_right hd
    rw [execCommand_deposit_opened hd hp, setW_eq_openWith hp] at he
    exact elim_openWith_raise_ne _ (depositRaises_ne_order c) (Host.Outcome.next.inj he)

theorem State.live_of_idle {s : State} (h : s.ph = .idle) : s.Live := by simp [h]

theorem State.live_of_opened {s : State} (h : s.ph = .opened) : s.Live := by simp [h]

end Sys2Proof.Machine

namespace Sys2Proof

open Machine

/-- Settles O2: a step on a reset gives the reset values, and by `step_ph_of_not_reset` any other step neither leaves
`FAULT` nor comes to `IDLE`. -/
theorem onlyResetRecovers : Obligations.OnlyResetRecovers := by
  refine ⟨fun s rest h => ⟨_, step_of_reset h, rfl, rfl, rfl, rfl, rfl⟩, fun s t hst hf hn => ?_,
    fun s t hst hn hi => ?_, fun _ _ _ => step_of_resetDuring⟩
  · by_contra hr
    rcases step_ph_of_not_reset hst hr with hsame | ⟨hlive, -⟩
    · exact hn (hsame.trans hf)
    · exact hlive hf
  · by_contra hr
    rcases step_ph_of_not_reset hst hr with hsame | ⟨-, ho | hf⟩
    · exact hn (hsame.symm.trans hi)
    · cases hi.symm.trans ho
    · cases hi.symm.trans hf

/-- Settles O6: `ORDER` is the fault of a field write outside `OPEN` and of nothing else; `NEW` and an encoder command
with admitted operands open a word from any live state. -/
theorem firstCommandAfterReset : Obligations.FirstCommandAfterReset := by
  refine ⟨fun s value width offset hi => ?_, fun s op hi => ?_, fun s i hi hwf => ?_, fun s i hi => ?_,
    fun s t c hi hc hn => ?_, fun s c ho => ?_⟩
  · have ho : s.ph ≠ .opened := by simp [hi]
    exact ⟨execCommand_deposit_order nofun (State.live_of_idle hi) ho,
      execCommand_deposit_order nofun (State.live_of_idle hi) ho⟩
  · exact ⟨_, execCommand_new_live op (State.live_of_idle hi), rfl⟩
  · exact ⟨_, exec_of_wellFormed (State.live_of_idle hi) hwf, rfl⟩
  · exact execCommand_ne_order (State.live_of_idle hi) (.inr rfl)
  · exact (execCommand_live_ph (State.live_of_idle hi) hc).resolve_right hn
  · exact execCommand_ne_order (State.live_of_opened ho) (.inl ho)

end Sys2Proof

/-! PROOF. The causes of a command (60_exceptions.md), when a step is refused (R48, R185), and the two readings of the immediate
writer (D11) and of the address difference (D12) where they agree; and from these the obligations. -/

namespace Sys2Proof.Machine

/-! ### The causes of a command (R171) -/

/-- A branch form raises what the table lists for it: the base form nothing, the others `ALIGN` or `RANGE`. -/
theorem formRaises_mem_causes {form : BranchForm} {k : Cause} (h : formRaises form = some k) : k ∈ form.causes := by
  have hmem : k ∈ [Cause.align, .range] := by
    obtain ⟨o, -, ⟨-, hr⟩ | ⟨-, -, hr⟩ | ⟨-, -, hr⟩⟩ := formRaises_cases form <;> rw [hr] at h <;> cases h <;> decide
  cases form with
  | base => cases h
  | disp offset => exact hmem
  | fromTo f t => exact hmem

/-- What the operands of an encoder command raise stands in the table for it. -/
theorem raises_mem_causes {i : Instr} {k : Cause} (h : i.raises = some k) : k ∈ i.causes := by
  have hfit {ok : Bool} (hok : fitUnless ok = some k) : k ∈ [Cause.fit] := by
    cases ok <;> cases hok
    exact List.mem_singleton_self _
  cases i with
  | b form => exact formRaises_mem_causes h
  | ba form => exact formRaises_mem_causes h
  | bl form => exact formRaises_mem_causes h
  | bla form => exact formRaises_mem_causes h
  | addi a b imm => exact hfit h
  | addis a b imm => exact hfit h
  | ori a b imm => exact hfit h
  | mtspr r id => exact hfit h
  | li a imm => exact hfit h
  | lis a imm => exact hfit h
  | nop => cases h
  | bctr => cases h

/-- The table lists for a field write the three causes of R102 and R104. -/
theorem causes_of_deposit {c : Command} (hd : c.deposit ≠ none) : c.causes = [.order, .span, .fit] := by
  cases c with
  | wuf value width offset => rfl
  | wsf value width offset => rfl
  | new op => exact absurd rfl hd
  | instr i => exact absurd rfl hd

/-- What the operands of a field write raise in `OPEN` stands in the table for it. -/
theorem depositRaises_mem_causes {c : Command} {k : Cause} (h : c.depositRaises = some k) : k ∈ c.causes := by
  cases c with
  | wuf value width offset =>
    change k ∈ [Cause.order, .span, .fit]
    rw [Command.depositRaises, wufRaises] at h
    split_ifs at h <;> cases h <;> decide
  | wsf value width offset =>
    change k ∈ [Cause.order, .span, .fit]
    rw [Command.depositRaises, wsfRaises] at h
    split_ifs at h <;> cases h <;> decide
  | new op => cases h
  | instr i => cases h

theorem eq_some_of_elim_openWith {s : State} {raised : Option Cause} {k : Cause} {w : Word}
    (h : raised.elim (s.openWith w) s.raise = s.raise k) : raised = some k := by
  by_contra hne
  exact elim_openWith_raise_ne w hne h

/-- The fault a command takes on a live state is one the table lists for it. -/
theorem execCommand_raise_mem_causes {c : Command} {s : State} {k : Cause} (hs : s.Live)
    (he : execCommand c s = .next (s.raise k)) : k ∈ c.causes := by
  by_cases hd : c.deposit = none
  · cases c with
    | new op =>
      rw [execCommand_new_live op hs] at he
      cases eq_some_of_elim_openWith (raised := none) (Host.Outcome.next.inj he)
    | instr i =>
      rw [execCommand_instr, exec_live i hs] at he
      exact raises_mem_causes (eq_some_of_elim_openWith (Host.Outcome.next.inj he))
    | wuf value width offset => cases hd
    | wsf value width offset => cases hd
  by_cases hp : s.ph = .opened
  · rw [execCommand_deposit_opened hd hp, setW_eq_openWith hp] at he
    exact depositRaises_mem_causes (eq_some_of_elim_openWith (Host.Outcome.next.inj he))
  · rw [execCommand_deposit_order hd hs hp] at he
    have hk : Cause.order = k := Option.some.inj (congrArg State.fc (Host.Outcome.next.inj he))
    rw [causes_of_deposit hd, ← hk]
    exact List.mem_cons_self

/-- A live state in which a command raises `ORDER` is in `IDLE`. -/
theorem idle_of_execCommand_order {c : Command} {s : State} (hs : s.Live)
    (he : execCommand c s = .next (s.raise .order)) : s.ph = .idle := by
  cases hp : s.ph with
  | idle => rfl
  | opened => exact absurd he (execCommand_ne_order hs (.inl hp))
  | fault => exact absurd hp hs

/-! ### When a step is refused (R48, R185) -/

/-- Every command answers a next state, a fault being one (R178). -/
theorem exists_execCommand_next (c : Command) (s : State) : ∃ t, execCommand c s = .next t := by
  obtain ⟨effect, -, he⟩ := execCommand_eq_perform c s
  exact ⟨perform effect s, he⟩

theorem step_of_commandDuring {s : State} {c d : Command} {rest : List Request}
    (h : s.requests = .commandDuring c d :: rest) : step s = .refused .overlappingUse := by
  simp only [step, takeRequest, h, execRequest]

/-! ### The two readings of the immediate writer (D11) -/

/-- An operand up to 0x7FFF reads the same as signed and as unsigned. -/
theorem toInt_eq_toNat_of_le {i : Operand} (h : i.toNat ≤ 0x7FFF) : i.toInt = i.toNat := by
  rw [operand_toInt_eq, if_pos (by omega)]

/-- The signed deposit of an immediate up to 0x7FFF: it fits both ranges, and its pattern is its number. -/
theorem wsfStep_eq_wufStep_of_le {i : Operand} (h : i.toNat ≤ 0x7FFF) (s : State) :
    wsfStep params i.toInt 16 16 s = wufStep params i.toNat 16 16 s := by
  by_cases hp : s.ph = .opened
  · have hlo : -(2 ^ (16 - 1)) ≤ (i.toNat : Int) := by omega
    have hhi : (i.toNat : Int) ≤ 2 ^ (16 - 1) - 1 := by omega
    have hpattern : ((i.toNat : Int) % 2 ^ 16).toNat = i.toNat := by omega
    rw [toInt_eq_toNat_of_le h, wsfStep_ok hp (by omega) (by omega) hlo hhi,
      depSigned_eq_dep (by omega) (by omega) hlo hhi, hpattern, wufStep_ok hp (by omega) (by omega)]
  · exact (if_pos hp).trans (if_pos hp).symm

theorem immStep_signed_of_le {i : Operand} (h : i.toNat ≤ 0x7FFF) :
    immStep { params with imm16Writer := .signed } i = immStep params i := by
  funext s
  rw [immStep_params]
  exact wsfStep_eq_wufStep_of_le h s

/-! ### The two readings of the address difference (D12) -/

/-- A difference that fits 32 bits does not wrap. -/
theorem fromToOffset_fault_of_fits {f t : Operand} (hlo : -(2 ^ 31) ≤ t.toInt - f.toInt)
    (hhi : t.toInt - f.toInt < 2 ^ 31) :
    fromToOffset { params with fromToOverflow := .fault } f t = fromToOffset params f t := by
  have hwrap : s32 (u32 (t.toInt - f.toInt)) = t.toInt - f.toInt := operand_toInt_ofInt (by omega) (by omega)
  have hfault : fromToOffset { params with fromToOverflow := .fault } f t = .ok (t.toInt - f.toInt) := if_pos ⟨hlo, hhi⟩
  have hparams : fromToOffset params f t = .ok (s32 (u32 (t.toInt - f.toInt))) := rfl
  rw [hfault, hparams, hwrap]

end Sys2Proof.Machine

namespace Sys2Proof

open Machine

/-- Settles O9: the codes are the parameter's; a command that ends in `FAULT` has taken one cause, which the table lists
for it, and `ORDER` is no cause in `OPEN`. -/
theorem causesByCommand : Obligations.CausesByCommand := by
  refine ⟨⟨rfl, rfl, rfl, rfl, rfl, rfl⟩, fun c s t hs hc ht => ?_⟩
  obtain ⟨k, rfl⟩ := execCommand_eq_raise hs hc ht
  refine ⟨k, execCommand_raise_mem_causes hs hc, rfl, fun hk => ?_⟩
  rw [hk] at hc
  exact idle_of_execCommand_order hs hc

/-- Settles O47: of the five things a step can find presented, only the two overlapping uses are refused, and a command
answers a next state. -/
theorem stepStopsOnlyOnOverlap : Obligations.StepStopsOnlyOnOverlap := by
  refine ⟨fun s => ?_, fun _ _ _ => step_of_resetDuring, fun _ _ _ _ => step_of_commandDuring⟩
  rcases step_cases s with ⟨-, he⟩ | ⟨rest, -, he⟩ | ⟨c, rest, -, he⟩ | ⟨c, rest, h, he⟩ | ⟨c, d, rest, h, he⟩
  · exact .inl ⟨_, he⟩
  · exact .inl ⟨_, he⟩
  · rw [he]
    exact .inl (exists_execCommand_next c _)
  · exact .inr ⟨he, c, rest, .inl h⟩
  · exact .inr ⟨he, c, rest, .inr ⟨d, h⟩⟩

/-- Settles O49: the writer is read by the deposit of the immediate alone, where both readings agree up to 0x7FFF. -/
theorem immediateWritersAgree : Obligations.ImmediateWritersAgree := by
  intro op a b i s hi
  have hnew : newStep { params with imm16Writer := .signed } = newStep params := rfl
  have hreg : regStep { params with imm16Writer := .signed } = regStep params := rfl
  rw [immForm, immForm, hnew, hreg, immStep_signed_of_le hi]

/-- Settles O50: the choice is read by the difference alone, which both readings compute alike where it fits. -/
theorem fromToOverflowAgree : Obligations.FromToOverflowAgree := by
  intro aa lk f t s hlo hhi
  have hdisp : branchDisp { params with fromToOverflow := .fault } = branchDisp params := rfl
  rw [branch, branch, fromToOffset_fault_of_fits hlo hhi, hdisp]

end Sys2Proof
